-- ==== Sys2Proof/Word.lean ====
section
/-! DEFINITION. The machine's word types (rules R5, R8, R20). -/

namespace Sys2Proof

/-- A register value: a 64-bit two's-complement pattern (R20); `toInt` is its `s64` value, `toNat` its `u64` value (R8). -/
abbrev Word := BitVec 64

/-- A data word: a 32-bit two's-complement pattern (R40); `toInt` is its `s32` value (R8). -/
abbrev Data := BitVec 32

/-- An instruction word, bit 0 the least significant bit (R7, R60). -/
abbrev InstrWord := BitVec 32

/-- A register index 0..31: every value of a register field names a register (R20). -/
abbrev Reg := Fin 32

end Sys2Proof
end

