-- ==== Sys2Proof/Config.lean ====
section
/-! DEFINITION. The parameters of the block: fixed before a run, never written by a step (rules R6, R29). -/

namespace Sys2Proof

/-- The opcode ROM: the leading-bit pattern that selects each of the 16 table-driven mnemonics, as wide as its format's
opcode slice (R6 (b), R61). B, NOP and BREAK are fixed patterns and stand outside it (R71). -/
structure Rom where
  add : BitVec 11
  sub : BitVec 11
  and : BitVec 11
  orr : BitVec 11
  eor : BitVec 11
  lsl : BitVec 11
  asr : BitVec 11
  lsr : BitVec 11
  ldur : BitVec 11
  stur : BitVec 11
  addi : BitVec 10
  subi : BitVec 10
  movz : BitVec 9
  movk : BitVec 9
  cbz : BitVec 8
  cbnz : BitVec 8
deriving DecidableEq, Repr

/-- The parameter `STUR_WIDE` (`93_implementation_defined.md` U2): what a STUR of a register value outside
-2^31..2^31-1 does. -/
inductive SturWide where
  | truncate  -- the spec's rule R146: the low 32 bits are stored
  | fault     -- the stricter model U2 allows: the machine stops, by name
deriving DecidableEq, Repr

/-- The parameters a model takes (R6; `93_implementation_defined.md` U2, U4, U5). -/
structure Config where
  /-- `ROM` (R72). -/
  rom : Rom
  /-- `MAX_CYCLES`, the runaway bound; `none` removes the guard (R174). -/
  maxCycles : Option Nat
  /-- `STUR_WIDE` (U2). -/
  sturWide : SturWide
  /-- `STRICT_SENTINELS` (U4): refuse at load a NOP or a BREAK that is not its canonical word. -/
  strictSentinels : Bool
deriving DecidableEq, Repr

end Sys2Proof
end

