-- ==== Sys2Proof/Syntax.lean ====
section
/-! DEFINITION. Formats, mnemonics and instructions (rules R1, R61, R62). -/

namespace Sys2Proof

/-- The eight format tags (R61). UNKNOWN is a decoder result, not a format: see `Decoded`. -/
inductive Format where
  | r | d | i | im | cb | b | nop | brk
deriving DecidableEq, Repr

/-- The nineteen mnemonics (R1, R105). -/
inductive Op where
  | add | sub | and | orr | eor
  | lsl | asr | lsr
  | ldur | stur
  | addi | subi
  | movz | movk
  | cbz | cbnz | b
  | nop | brk
deriving DecidableEq, Repr

/-- An instruction: one constructor per row of the opcode table, each carrying exactly the fields of its format's bundle
(R62, R90). The eight R instructions all carry `rm` and `shamt`, also where the instruction does not use them (R75, R92). -/
inductive Instr where
  /-- ADD Rd, Rn, Rm (R121). -/
  | add (rd rn rm : Reg) (shamt : Nat)
  /-- SUB Rd, Rn, Rm (R122). -/
  | sub (rd rn rm : Reg) (shamt : Nat)
  /-- AND Rd, Rn, Rm (R123). -/
  | and (rd rn rm : Reg) (shamt : Nat)
  /-- ORR Rd, Rn, Rm (R124). -/
  | orr (rd rn rm : Reg) (shamt : Nat)
  /-- EOR Rd, Rn, Rm (R125). -/
  | eor (rd rn rm : Reg) (shamt : Nat)
  /-- LSL Rd, Rn, #shamt (R135). -/
  | lsl (rd rn rm : Reg) (shamt : Nat)
  /-- ASR Rd, Rn, #shamt (R136). -/
  | asr (rd rn rm : Reg) (shamt : Nat)
  /-- LSR Rd, Rn, #shamt (R137). -/
  | lsr (rd rn rm : Reg) (shamt : Nat)
  /-- LDUR Rd, [Rn, #addr] (R145). -/
  | ldur (rd rn : Reg) (addr : Nat)
  /-- STUR Rd, [Rn, #addr] (R146): `rd` is the register stored. -/
  | stur (rd rn : Reg) (addr : Nat)
  /-- ADDI Rd, Rn, #imm (R130). -/
  | addi (rd rn : Reg) (imm : Int)
  /-- SUBI Rd, Rn, #imm (R131). -/
  | subi (rd rn : Reg) (imm : Int)
  /-- MOVZ Rd, field, LSL 16*shcode (R140). -/
  | movz (rd : Reg) (shcode field : Nat)
  /-- MOVK Rd, field, LSL 16*shcode (R141). -/
  | movk (rd : Reg) (shcode field : Nat)
  /-- CBZ Rd, #off (R151): `rd` is the register tested, `off` counts instruction slots. -/
  | cbz (rd : Reg) (off : Int)
  /-- CBNZ Rd, #off (R152). -/
  | cbnz (rd : Reg) (off : Int)
  /-- B #off (R153). -/
  | b (off : Int)
  /-- NOP (R161). -/
  | nop
  /-- BREAK (R160). -/
  | brk
deriving DecidableEq, Repr

end Sys2Proof
end

