-- ==== Sys2Proof/WellFormed.lean ====
section
/-! DEFINITION. Which instructions have an encoding: every field in the range of the spec's field table (rule R62). -/

namespace Sys2Proof

/-- `shamt` is 0..63 (R62). -/
abbrev ShamtOk (shamt : Nat) : Prop := shamt < 64

/-- `addr` is 0..511 (R62). -/
abbrev AddrOk (addr : Nat) : Prop := addr < 512

/-- `imm` is -2048..2047 (R62). -/
abbrev ImmOk (imm : Int) : Prop := -2048 ≤ imm ∧ imm ≤ 2047

/-- `shcode` is 0..3 and `field` 0..65535 (R62). -/
abbrev WideOk (shcode field : Nat) : Prop := shcode < 4 ∧ field < 65536

/-- A CB `off` is -262144..262143 (R62). -/
abbrev OffCBOk (off : Int) : Prop := -262144 ≤ off ∧ off ≤ 262143

/-- A B `off` is -33554432..33554431 (R62). -/
abbrev OffBOk (off : Int) : Prop := -33554432 ≤ off ∧ off ≤ 33554431

/-- Every field of the instruction is in its range (R62); register fields are in range by their type (R20). -/
def Instr.wellFormed : Instr → Bool
  | .add _ _ _ shamt => decide (ShamtOk shamt)
  | .sub _ _ _ shamt => decide (ShamtOk shamt)
  | .and _ _ _ shamt => decide (ShamtOk shamt)
  | .orr _ _ _ shamt => decide (ShamtOk shamt)
  | .eor _ _ _ shamt => decide (ShamtOk shamt)
  | .lsl _ _ _ shamt => decide (ShamtOk shamt)
  | .asr _ _ _ shamt => decide (ShamtOk shamt)
  | .lsr _ _ _ shamt => decide (ShamtOk shamt)
  | .ldur _ _ addr => decide (AddrOk addr)
  | .stur _ _ addr => decide (AddrOk addr)
  | .addi _ _ imm => decide (ImmOk imm)
  | .subi _ _ imm => decide (ImmOk imm)
  | .movz _ shcode field => decide (WideOk shcode field)
  | .movk _ shcode field => decide (WideOk shcode field)
  | .cbz _ off => decide (OffCBOk off)
  | .cbnz _ off => decide (OffCBOk off)
  | .b off => decide (OffBOk off)
  | .nop => true
  | .brk => true

/-- The instruction is well formed. -/
abbrev Instr.WellFormed (i : Instr) : Prop := i.wellFormed = true

end Sys2Proof
end

