-- ==== Sys2Proof/Decode.lean ====
section
/-! DEFINITION. The decoder (bitfield unpacker), the dispatcher with its opcode ROM, the sign extension unit, and the
encoder written from the same tables (`30_encoding.md`, `40_decode_and_step.md` section 1). -/

namespace Sys2Proof

/-! ## Field slices and the sign extension unit -/

/-- `w[hi:lo]`, inclusive at both ends (R7). -/
def slice (w : InstrWord) (hi lo : Nat) : BitVec (hi - lo + 1) := w.extractLsb hi lo

/-- The `n` leading bits of the word, read unsigned: the slice `w[31 : 32-n]` (R7, R61). -/
def leading (n : Nat) (w : InstrWord) : Nat := w.toNat >>> (32 - n)

/-- `sext_N`, by the source's rule: the unsigned value if the sign bit is 0, else the negated value of the inversion plus
one, both taken in the field's own `n` bits (R66). -/
def sext {n : Nat} (v : BitVec n) : Int :=
  if v.msb then -(((~~~v + 1#n).toNat : Nat) : Int) else (v.toNat : Int)

/-- A register field read as an index: a plain index, no value is special (R20, R76). -/
def regOf (v : BitVec 5) : Reg := Fin.ofNat 32 v.toNat

/-- The pattern of a register index. -/
def regBits (r : Reg) : BitVec 5 := BitVec.ofNat 5 r.val

/-! ## Formats, names and patterns -/

/-- The format of each mnemonic (R61, R72). -/
def Op.format : Op → Format
  | .add | .sub | .and | .orr | .eor | .lsl | .asr | .lsr => .r
  | .ldur | .stur => .d
  | .addi | .subi => .i
  | .movz | .movk => .im
  | .cbz | .cbnz => .cb
  | .b => .b
  | .nop => .nop
  | .brk => .brk

/-- How many leading bits a format's lookup uses (R61). -/
def Format.opcodeBits : Format → Nat
  | .r => 11
  | .d => 11
  | .i => 10
  | .im => 9
  | .cb => 8
  | .b => 6
  | .nop => 11
  | .brk => 11

/-- The mnemonic string (R71). -/
def Op.name : Op → String
  | .add => "ADD" | .sub => "SUB" | .and => "AND" | .orr => "ORR" | .eor => "EOR"
  | .lsl => "LSL" | .asr => "ASR" | .lsr => "LSR"
  | .ldur => "LDUR" | .stur => "STUR"
  | .addi => "ADDI" | .subi => "SUBI"
  | .movz => "MOVZ" | .movk => "MOVK"
  | .cbz => "CBZ" | .cbnz => "CBNZ" | .b => "B"
  | .nop => "NOP" | .brk => "BREAK"

/-- The mnemonic of an instruction. -/
def Instr.op : Instr → Op
  | .add .. => .add
  | .sub .. => .sub
  | .and .. => .and
  | .orr .. => .orr
  | .eor .. => .eor
  | .lsl .. => .lsl
  | .asr .. => .asr
  | .lsr .. => .lsr
  | .ldur .. => .ldur
  | .stur .. => .stur
  | .addi .. => .addi
  | .subi .. => .subi
  | .movz .. => .movz
  | .movk .. => .movk
  | .cbz .. => .cbz
  | .cbnz .. => .cbnz
  | .b .. => .b
  | .nop => .nop
  | .brk => .brk

/-- The fixed leading pattern of B (R69), of NOP and of BREAK (R70). -/
def patternB : BitVec 6 := 0b000101#6
/-- "opcode field all zero" (R70). -/
def patternNop : BitVec 11 := 0b00000000000#11
/-- The BREAK sentinel (R70). -/
def patternBreak : BitVec 11 := 0b11111110110#11

/-- The leading-bit pattern that selects a mnemonic, read unsigned (R71, R72). -/
def Rom.pattern (rom : Rom) : Op → Nat
  | .add => rom.add.toNat
  | .sub => rom.sub.toNat
  | .and => rom.and.toNat
  | .orr => rom.orr.toNat
  | .eor => rom.eor.toNat
  | .lsl => rom.lsl.toNat
  | .asr => rom.asr.toNat
  | .lsr => rom.lsr.toNat
  | .ldur => rom.ldur.toNat
  | .stur => rom.stur.toNat
  | .addi => rom.addi.toNat
  | .subi => rom.subi.toNat
  | .movz => rom.movz.toNat
  | .movk => rom.movk.toNat
  | .cbz => rom.cbz.toNat
  | .cbnz => rom.cbnz.toNat
  | .b => patternB.toNat
  | .nop => patternNop.toNat
  | .brk => patternBreak.toNat

/-- The width of a mnemonic's pattern (R61). -/
def Op.bits (o : Op) : Nat := o.format.opcodeBits

/-- The default contents of the opcode ROM (R72). ADD is printed by the source; the other fifteen are the spec's own, from
general knowledge (D1). PRESUMED: log entry 3; EOR is 1872 here, 1616 on another card. -/
def Rom.default : Rom where
  add := 0b10001011000#11
  sub := 0b11001011000#11
  and := 0b10001010000#11
  orr := 0b10101010000#11
  eor := 0b11101010000#11
  lsl := 0b11010011011#11
  asr := 0b11010011100#11
  lsr := 0b11010011010#11
  ldur := 0b11111000010#11
  stur := 0b11111000000#11
  addi := 0b1001000100#10
  subi := 0b1101000100#10
  movz := 0b110100101#9
  movk := 0b111100101#9
  cbz := 0b10110100#8
  cbnz := 0b10110101#8

/-! ## The dispatcher -/

/-- The word's leading bits are the mnemonic's pattern. -/
def Rom.selects (rom : Rom) (w : InstrWord) (o : Op) : Bool := leading o.bits w == rom.pattern o

/-- The classification order: R, D, I, IM, CB, B, NOP, BREAK (R71). The order inside one format's table is the model's
(log entry 16); a prefix-free ROM makes every order the same (R73). -/
def classOrder : List Op :=
  [.add, .sub, .and, .orr, .eor, .lsl, .asr, .lsr] ++ [.stur, .ldur] ++ [.addi, .subi] ++ [.movz, .movk] ++
    [.cbz, .cbnz] ++ [.b] ++ [.nop] ++ [.brk]

/-- `classify`: the first mnemonic, in the classification order, whose pattern the word's leading bits are; none for an
unrecognised word (R71, R74). -/
def classify (rom : Rom) (w : InstrWord) : Option Op := classOrder.find? (rom.selects w)

/-- One pattern is a prefix of another, or equal to it (R73). -/
def Rom.clash (rom : Rom) (o p : Op) : Bool :=
  if o.bits ≤ p.bits then rom.pattern p >>> (p.bits - o.bits) == rom.pattern o
  else rom.pattern o >>> (o.bits - p.bits) == rom.pattern p

/-- No pattern is a prefix of another: the premise R73 asks of a ROM. -/
def Rom.prefixFree (rom : Rom) : Bool :=
  classOrder.all fun o => classOrder.all fun p => decide (o = p) || !rom.clash o p

/-- The ROM is prefix-free (R73). -/
abbrev Rom.PrefixFree (rom : Rom) : Prop := rom.prefixFree = true

/-! ## The decoder -/

/-- What the decoder answers: an instruction, or the tag UNKNOWN with the raw word (R74, R90). -/
inductive Decoded where
  | instr (i : Instr)
  | unknown (w : InstrWord)
deriving DecidableEq, Repr

/-- The `illegal` output of the decoder (R74). -/
def Decoded.illegal : Decoded → Bool
  | .instr _ => false
  | .unknown _ => true

/-- The mnemonic output: `""` for UNKNOWN (R74). -/
def Decoded.mnemonic : Decoded → String
  | .instr i => i.op.name
  | .unknown _ => ""

/-- The format output; none stands for the tag UNKNOWN (R74). -/
def Decoded.format : Decoded → Option Format
  | .instr i => some i.op.format
  | .unknown _ => none

/-- `rd = w[4:0]` (R63 to R68). -/
def fieldRd (w : InstrWord) : Reg := regOf (slice w 4 0)
/-- `rn = w[9:5]` (R63 to R65). -/
def fieldRn (w : InstrWord) : Reg := regOf (slice w 9 5)
/-- `rm = w[20:16]` (R63). -/
def fieldRm (w : InstrWord) : Reg := regOf (slice w 20 16)
/-- `shamt = w[15:10]`, unsigned (R63). -/
def fieldShamt (w : InstrWord) : Nat := (slice w 15 10).toNat
/-- `addr = w[20:12]`, unsigned; the gap `w[11:10]` is ignored (R64). -/
def fieldAddr (w : InstrWord) : Nat := (slice w 20 12).toNat
/-- `imm = sext_12(w[21:10])` (R65). -/
def fieldImm (w : InstrWord) : Int := sext (slice w 21 10)
/-- `shcode = w[22:21]` (R67). -/
def fieldShcode (w : InstrWord) : Nat := (slice w 22 21).toNat
/-- `field = w[20:5]`, unsigned (R67). -/
def fieldWide (w : InstrWord) : Nat := (slice w 20 5).toNat
/-- `off = sext_19(w[23:5])` (R68). -/
def fieldOffCB (w : InstrWord) : Int := sext (slice w 23 5)
/-- `off = sext_26(w[25:0])` (R69). -/
def fieldOffB (w : InstrWord) : Int := sext (slice w 25 0)

/-- The instruction a mnemonic's word stands for: the fields of its format (R63 to R70, R90). -/
def unpack (o : Op) (w : InstrWord) : Instr :=
  match o with
  | .add => .add (fieldRd w) (fieldRn w) (fieldRm w) (fieldShamt w)
  | .sub => .sub (fieldRd w) (fieldRn w) (fieldRm w) (fieldShamt w)
  | .and => .and (fieldRd w) (fieldRn w) (fieldRm w) (fieldShamt w)
  | .orr => .orr (fieldRd w) (fieldRn w) (fieldRm w) (fieldShamt w)
  | .eor => .eor (fieldRd w) (fieldRn w) (fieldRm w) (fieldShamt w)
  | .lsl => .lsl (fieldRd w) (fieldRn w) (fieldRm w) (fieldShamt w)
  | .asr => .asr (fieldRd w) (fieldRn w) (fieldRm w) (fieldShamt w)
  | .lsr => .lsr (fieldRd w) (fieldRn w) (fieldRm w) (fieldShamt w)
  | .ldur => .ldur (fieldRd w) (fieldRn w) (fieldAddr w)
  | .stur => .stur (fieldRd w) (fieldRn w) (fieldAddr w)
  | .addi => .addi (fieldRd w) (fieldRn w) (fieldImm w)
  | .subi => .subi (fieldRd w) (fieldRn w) (fieldImm w)
  | .movz => .movz (fieldRd w) (fieldShcode w) (fieldWide w)
  | .movk => .movk (fieldRd w) (fieldShcode w) (fieldWide w)
  | .cbz => .cbz (fieldRd w) (fieldOffCB w)
  | .cbnz => .cbnz (fieldRd w) (fieldOffCB w)
  | .b => .b (fieldOffB w)
  | .nop => .nop
  | .brk => .brk

/-- `decode_line`: total on all 2^32 words, a pure function of the word and the ROM (R90, R91). -/
def decode (rom : Rom) (w : InstrWord) : Decoded :=
  match classify rom w with
  | some o => .instr (unpack o w)
  | none => .unknown w

/-- The numeric opcode `opc` of a classified word: its opcode slice read unsigned (R62). -/
def opcodeOf (o : Op) (w : InstrWord) : Nat := leading o.bits w

/-- `decode_data`: a data word is a plain signed 32-bit value, never classified (R77). -/
def decodeData (w : InstrWord) : Data := w

/-! ## The encoder -/

/-- R format (R63). -/
def packR (opc : BitVec 11) (rm : Reg) (shamt : Nat) (rn rd : Reg) : InstrWord :=
  opc ++ regBits rm ++ BitVec.ofNat 6 shamt ++ regBits rn ++ regBits rd

/-- D format, zero in the gap `w[11:10]` (R64). -/
def packD (opc : BitVec 11) (addr : Nat) (rn rd : Reg) : InstrWord :=
  opc ++ BitVec.ofNat 9 addr ++ 0#2 ++ regBits rn ++ regBits rd

/-- I format (R65). -/
def packI (opc : BitVec 10) (imm : Int) (rn rd : Reg) : InstrWord :=
  opc ++ BitVec.ofInt 12 imm ++ regBits rn ++ regBits rd

/-- IM format (R67). -/
def packIM (opc : BitVec 9) (shcode field : Nat) (rd : Reg) : InstrWord :=
  opc ++ BitVec.ofNat 2 shcode ++ BitVec.ofNat 16 field ++ regBits rd

/-- CB format (R68). -/
def packCB (opc : BitVec 8) (off : Int) (rd : Reg) : InstrWord :=
  opc ++ BitVec.ofInt 19 off ++ regBits rd

/-- B format (R69). -/
def packB (off : Int) : InstrWord := patternB ++ BitVec.ofInt 26 off

/-- The canonical NOP word (R70). -/
def nopWord : InstrWord := 0x00000000#32

/-- The canonical BREAK word (R70). -/
def breakWord : InstrWord := 0xFEDEFFE7#32

/-- The word of a well-formed instruction (R63 to R70). Of the bits no field names, the encoder writes the canonical ones:
zero in the D gap, the canonical words for NOP and BREAK. -/
def encode (rom : Rom) : Instr → InstrWord
  | .add rd rn rm shamt => packR rom.add rm shamt rn rd
  | .sub rd rn rm shamt => packR rom.sub rm shamt rn rd
  | .and rd rn rm shamt => packR rom.and rm shamt rn rd
  | .orr rd rn rm shamt => packR rom.orr rm shamt rn rd
  | .eor rd rn rm shamt => packR rom.eor rm shamt rn rd
  | .lsl rd rn rm shamt => packR rom.lsl rm shamt rn rd
  | .asr rd rn rm shamt => packR rom.asr rm shamt rn rd
  | .lsr rd rn rm shamt => packR rom.lsr rm shamt rn rd
  | .ldur rd rn addr => packD rom.ldur addr rn rd
  | .stur rd rn addr => packD rom.stur addr rn rd
  | .addi rd rn imm => packI rom.addi imm rn rd
  | .subi rd rn imm => packI rom.subi imm rn rd
  | .movz rd shcode field => packIM rom.movz shcode field rd
  | .movk rd shcode field => packIM rom.movk shcode field rd
  | .cbz rd off => packCB rom.cbz off rd
  | .cbnz rd off => packCB rom.cbnz off rd
  | .b off => packB off
  | .nop => nopWord
  | .brk => breakWord

/-! ## The opcode table's numbering -/

/-- The instruction read from `nbits` bits numbered as the opcode table numbers them, the bits above them zero; every
instruction is one 32-bit word (R60), so more than 32 bits are none. The ROM is the default one (R72). -/
def decodeTableWord (nbits w : Nat) : Option Instr :=
  if nbits ≤ 32 then
    match decode Rom.default (BitVec.ofNat 32 (w % 2 ^ nbits)) with
    | .instr i => some i
    | .unknown _ => none
  else none

end Sys2Proof
end

