-- ==== Sys2Proof/Machine/Defaults.lean ====
section
/-! DEFINITION. The values a reset gives, and the layout of positions (rules R5, R6, R35). -/

namespace Sys2Proof.Machine

/-- `POS_BASE` (R5). -/
def posBase : Int := 96

/-- `POS_STEP` (R5). -/
def posStep : Int := 4

/-- The position of slot or line `i`: 96 + 4*i (R25, R102). -/
def position (i : Int) : Int := posBase + posStep * i

/-- The default of `MAX_CYCLES` (R6 (a), R174). -/
def defaultMaxCycles : Option Nat := some 100

/-- The default parameters: R72's ROM, bound 100 (R6), truncating stores (R146), sentinels by leading bits alone (R70).
Log entries 3, 4, 9, 10. -/
def defaultConfig : Config where
  rom := Rom.default
  maxCycles := defaultMaxCycles
  sturWide := .truncate
  strictSentinels := false

/-- What each register holds after reset: 0 (R35, R191). PRESUMED by the spec (its decision D15): log entry 2. -/
def resetRegister : Word := 0#64

/-- The instruction index after reset (R35). -/
def resetIdx : Int := 0

/-- The cycle counter after reset (R35). -/
def resetCycle : Nat := 1

end Sys2Proof.Machine
end

