-- ==== Sys2Proof/Machine/State.lean ====
section
/-! DEFINITION. The state of the block, the ways it can stop, and its reset value (`10_state.md`, `60_exceptions.md`). -/

namespace Sys2Proof.Machine

/-- The data store `mem`: a finite partial map from `s64` positions to 32-bit words (R31, R40), as its list of entries in
increasing position order (R54). An unlisted position has NO entry: that is the state a store changes (R42) and the data
dump shows (R182), so an entry of value 0 stays listed (R104). Log entry 1. -/
abbrev Memory := List (Int × Data)

/-- An error kind with the value it records (R28, R170). -/
inductive ErrorKind where
  /-- An UNKNOWN word was fetched: its index and the word (R171). -/
  | decodeFailure (idx : Int) (word : InstrWord)
  /-- The index is outside 0..N-1: the illegal index (R172). -/
  | controlFlowOutOfRange (idx : Int)
  /-- The runaway guard fired: the cycle counter (R174). -/
  | runawayExecution (cycle : Nat)
deriving DecidableEq, Repr

/-- The run status (R28). -/
inductive Status where
  | running
  | halted
  | fault (kind : ErrorKind)
deriving DecidableEq, Repr

/-- A trace record: the observation one executed cycle emits (R182), with the raw word the decoded instruction keeps (R90). -/
structure TraceRecord where
  cycle : Nat
  pos : Int
  word : InstrWord
  instr : Instr
  regs : Vector Word 32
  mem : Memory
deriving DecidableEq, Repr

/-- The state of the block (R35). `cfg` and `imem` are configuration: no step writes them (R29, R30). -/
structure State where
  /-- `ROM`, `MAX_CYCLES` and the model parameters (R6). -/
  cfg : Config
  /-- `IMEM`, its length being `N`: the raw words, decoded where they are fetched (R30, R91). Log entry 7. -/
  imem : List InstrWord
  /-- The register file `x` (R20). -/
  regs : Vector Word 32
  /-- The instruction index, the program counter (R24). -/
  idx : Int
  /-- The cycle counter (R27). -/
  cycle : Nat
  /-- The run status (R28). -/
  status : Status
  /-- The data store (R31). -/
  mem : Memory
  /-- The trace records emitted so far, oldest first (R182). The model's own field: log entry 8. -/
  trace : List TraceRecord
deriving DecidableEq, Repr

/-- Why the model stops outside the spec's own status register. The spec's three error kinds are NOT here: they are next
states with status FAULT (R176). -/
inductive Fault where
  /-- Raised by STUR alone, and only when the parameter `STUR_WIDE` is set to fault: the value of the stored register is
  outside -2^31..2^31-1 (`93_implementation_defined.md` U2). Safe: with the default parameter nothing raises it, and where
  it is raised the machine stops instead of storing a truncated value. -/
  | storeTooWide (pos : Int) (value : Word)
deriving DecidableEq, Repr

/-- What the model refuses. -/
inductive Refusal where
  /-- An instruction without a meaning, by its mnemonic. Raised by no arm: every instruction has its meaning. Safe. -/
  | notModelled (mnemonic : String)
  /-- Raised by the loader: line number `line` (from 0) is not 32 characters `0` or `1` (R100, D23). Safe. -/
  | malformedLine (line : Nat)
  /-- Raised by the loader, and only when `STRICT_SENTINELS` is set: the instruction of index `idx` is a NOP or a BREAK but
  not its canonical word (`93_implementation_defined.md` U4). Safe. -/
  | nonCanonicalSentinel (idx : Nat)
deriving DecidableEq, Repr

/-- The machine right after reset with no program presented (R35, R190): N = 0, so the first step raises
ControlFlowOutOfRange(0) (R111). A program comes in by `load` (R101): log entry 11. -/
def State.reset : State where
  cfg := defaultConfig
  imem := []
  regs := Vector.replicate 32 resetRegister
  idx := resetIdx
  cycle := resetCycle
  status := .running
  mem := []
  trace := []

end Sys2Proof.Machine
end

