-- ==== Sys2Proof/Machine/Ops.lean ====
section
/-! DEFINITION. The named operations over registers, data store, instruction store, index, trace and status, each written
once: the register-file updater (R106), the memory primitives (R41, R42), raising an error kind (R176), the trace record
(R182) and the control delta (R110). -/

namespace Sys2Proof.Machine

/-! ## The data store -/

/-- The entry at a position, if there is one (R40). -/
def Memory.entry : Memory → Int → Option Data
  | [], _ => none
  | (q, v) :: rest, p => if q = p then some v else Memory.entry rest p

/-- `MemRead(p, 4)`: the entry's value, 0 when there is none; never faults, never changes the store (R41). -/
def Memory.read (m : Memory) (p : Int) : Data := (Memory.entry m p).getD 0#32

/-- `MemWrite(p, 4, v)`: replaces the entry at `p` or inserts one, and keeps the entries in position order (R42, R54). -/
def Memory.write : Memory → Int → Data → Memory
  | [], p, v => [(p, v)]
  | (q, u) :: rest, p, v =>
    if p < q then (p, v) :: (q, u) :: rest
    else if p = q then (p, v) :: rest
    else (q, u) :: Memory.write rest p v

/-- A position is an `s64` integer (R40). -/
abbrev PositionOk (p : Int) : Prop := -2 ^ 63 ≤ p ∧ p < 2 ^ 63

/-- The canonical form of a store: positions strictly rising, so at most one entry a position (R40, R54), and all `s64`. -/
abbrev Memory.wf (m : Memory) : Prop := m.Pairwise (fun a b => a.1 < b.1) ∧ ∀ c ∈ m, PositionOk c.1

/-! ## The register file -/

/-- `x[r]` (R9): no register is special, register 31 among them (R21). -/
def State.reg (s : State) (r : Reg) : Word := s.regs[r]

/-- `x[r] <- v` (R9): the write is always kept (R21, R106). -/
def State.setReg (s : State) (r : Reg) (v : Word) : State := { s with regs := s.regs.set r v }

/-! ## Memory, index and status of a state -/

/-- `MemRead` on the state's store (R41). -/
def State.memRead (s : State) (p : Int) : Data := Memory.read s.mem p

/-- `MemWrite` on the state's store (R42). -/
def State.memWrite (s : State) (p : Int) (v : Data) : State := { s with mem := Memory.write s.mem p v }

/-- `idx <- idx + delta`, exact: no wrap, no clamp (R26, R110). -/
def State.advance (s : State) (delta : Int) : State := { s with idx := s.idx + delta }

/-- Taking an error kind, `raise K(info)`: `status <- FAULT(K, info)` and nothing else (R176). There is no return from it
(R177). -/
def State.raise (s : State) (k : ErrorKind) : State := { s with status := .fault k }

/-- The normal end of a run: `status <- HALTED` and nothing else (R160, R184). -/
def State.halt (s : State) : State := { s with status := .halted }

/-- The numeric code of an error kind (R170; the spec's own, D17). -/
def ErrorKind.code : ErrorKind → Nat
  | .decodeFailure _ _ => 1
  | .controlFlowOutOfRange _ => 2
  | .runawayExecution _ => 3

/-! ## The instruction store -/

/-- `N`, the number of instruction slots (R30). -/
def State.slots (s : State) : Nat := s.imem.length

/-- Fetch `IMEM[idx]`: none when `idx < 0` or `idx >= N` (R107 steps 1 and 2). -/
def State.fetch (s : State) : Option InstrWord :=
  if s.idx < 0 then none else s.imem[s.idx.toNat]?

/-- The decoded form of the instruction about to run, when the index is in range (R90, R91). -/
def State.fetchDecoded (s : State) : Option Decoded := s.fetch.map (decode s.cfg.rom)

/-! ## The trace -/

/-- The record of an executed cycle: the cycle number, position and word of `s`, where the instruction was fetched, and
the registers and store of `t`, after its effect (R107 step 5, R182). -/
def traceRecord (s t : State) (w : InstrWord) (i : Instr) : TraceRecord where
  cycle := s.cycle
  pos := position s.idx
  word := w
  instr := i
  regs := t.regs
  mem := t.mem

/-- Emit a record (R107 step 5). -/
def State.emit (s : State) (r : TraceRecord) : State := { s with trace := s.trace ++ [r] }

/-! ## How an instruction's effect ends -/

/-- A writing instruction: `x[rd] <- v; delta <- 1` (R106, R26). -/
def writeAndStep (rd : Reg) (v : Word) (s : State) : Host.Outcome State Fault Refusal :=
  .next ((s.setReg rd v).advance 1)

/-- A storing instruction: `MemWrite(p, 4, v); delta <- 1` (R106, R26). -/
def storeAndStep (p : Int) (v : Data) (s : State) : Host.Outcome State Fault Refusal :=
  .next ((s.memWrite p v).advance 1)

/-- An instruction that only moves the index by its control delta (R150). -/
def moveBy (delta : Int) (s : State) : Host.Outcome State Fault Refusal := .next (s.advance delta)

end Sys2Proof.Machine
end

