-- ==== Sys2Proof/Machine/Operands.lean ====
section
/-! DEFINITION. Operand forms: narrowing, widening, the effective position, the wide-move slice (R8, R66, R76, R142, R147). -/

namespace Sys2Proof.Machine

/-- `s64(v)`: the 64-bit pattern congruent to `v` modulo 2^64 (R8, R126). -/
def s64 (v : Int) : Word := BitVec.ofInt 64 v

/-- `s32(v)`: the 32-bit pattern congruent to `v` modulo 2^32 (R8). -/
def s32 (v : Int) : Data := BitVec.ofInt 32 v

/-- `u64(x)` as an integer: the register's pattern read unsigned (R8). -/
def u64 (x : Word) : Int := (x.toNat : Int)

/-- The effective position of a load or store: `s64(x[rn] + 4*addr)`, signed, wrapping at 64 bits (R47, R147). -/
def effectivePosition (base : Word) (addr : Nat) : Int := (s64 (base.toInt + 4 * (addr : Int))).toInt

/-- The logical shift amount of a wide move: `sh = 16 * shcode` (R67, R142). -/
def wideShift (shcode : Nat) : Nat := 16 * shcode

/-- `field * 2^sh` as a 64-bit pattern (R140). -/
def wideField (shcode field : Nat) : Word := s64 ((field : Int) * 2 ^ wideShift shcode)

/-- `0xFFFF * 2^sh`: the 16-bit slice a wide move names (R141). -/
def wideMask (shcode : Nat) : Word := s64 (0xFFFF * 2 ^ wideShift shcode)

/-- Widening on a load: the `s32` value carried over as it is (R145). -/
def loadWord (d : Data) : Word := s64 d.toInt

/-- Narrowing on a store: the low 32 bits (R146). -/
def storeWord (x : Word) : Data := s32 x.toInt

/-- The register's value is a signed 32-bit value (R146, `93_implementation_defined.md` U2). -/
abbrev FitsWord (x : Word) : Prop := -2 ^ 31 ≤ x.toInt ∧ x.toInt < 2 ^ 31

end Sys2Proof.Machine
end

