-- ==== Sys2Proof/Machine/Flags.lean ====
section
/-! DEFINITION. The block has no flags (R32): no instruction computes one. What stands here is the only condition it has,
the test of a whole register by CBZ and CBNZ (R151, R152). -/

namespace Sys2Proof.Machine

/-- All 64 bits of the register are 0 (R151). -/
def isZero (x : Word) : Bool := x == 0#64

end Sys2Proof.Machine
end

