-- ==== Sys2Proof/Machine/ArithImm.lean ====
section
/-! DEFINITION. ADDI, SUBI (`42_arith_imm.md`). The immediate is signed (R132). -/

namespace Sys2Proof.Machine

/-- `x[rd] <- s64(x[rn] + imm)` (R130). -/
def execAddi (rd rn : Reg) (imm : Int) (s : State) : Host.Outcome State Fault Refusal :=
  writeAndStep rd (s64 ((s.reg rn).toInt + imm)) s

/-- `x[rd] <- s64(x[rn] - imm)` (R131). -/
def execSubi (rd rn : Reg) (imm : Int) (s : State) : Host.Outcome State Fault Refusal :=
  writeAndStep rd (s64 ((s.reg rn).toInt - imm)) s

end Sys2Proof.Machine
end

