-- ==== Sys2Proof/Machine/ArithLogic.lean ====
section
/-! DEFINITION. ADD, SUB, AND, ORR, EOR (`41_arith_logic_reg.md`). `shamt` is extracted and ignored (R75, R120). -/

namespace Sys2Proof.Machine

/-- `x[rd] <- s64(x[rn] + x[rm])` (R121). -/
def execAdd (rd rn rm : Reg) (s : State) : Host.Outcome State Fault Refusal :=
  writeAndStep rd (s64 ((s.reg rn).toInt + (s.reg rm).toInt)) s

/-- `x[rd] <- s64(x[rn] - x[rm])` (R122). -/
def execSub (rd rn rm : Reg) (s : State) : Host.Outcome State Fault Refusal :=
  writeAndStep rd (s64 ((s.reg rn).toInt - (s.reg rm).toInt)) s

/-- `x[rd] <- s64(u64(x[rn]) & u64(x[rm]))` (R123). -/
def execAnd (rd rn rm : Reg) (s : State) : Host.Outcome State Fault Refusal :=
  writeAndStep rd (s.reg rn &&& s.reg rm) s

/-- `x[rd] <- s64(u64(x[rn]) | u64(x[rm]))` (R124). -/
def execOrr (rd rn rm : Reg) (s : State) : Host.Outcome State Fault Refusal :=
  writeAndStep rd (s.reg rn ||| s.reg rm) s

/-- `x[rd] <- s64(u64(x[rn]) ^ u64(x[rm]))` (R125). -/
def execEor (rd rn rm : Reg) (s : State) : Host.Outcome State Fault Refusal :=
  writeAndStep rd (s.reg rn ^^^ s.reg rm) s

end Sys2Proof.Machine
end

