-- ==== Sys2Proof/Machine/Branch.lean ====
section
/-! DEFINITION. CBZ, CBNZ, B and the branch offset calculator (`46_branch.md`). -/

namespace Sys2Proof.Machine

/-- The branch offset calculator: the offset when the branch is taken, else 1 (R150). -/
def takenDelta (taken : Bool) (off : Int) : Int := if taken then off else 1

/-- `if x[rd] = 0 then delta <- off else delta <- 1` (R151). -/
def execCbz (rd : Reg) (off : Int) (s : State) : Host.Outcome State Fault Refusal :=
  moveBy (takenDelta (isZero (s.reg rd)) off) s

/-- `if x[rd] != 0 then delta <- off else delta <- 1` (R152). -/
def execCbnz (rd : Reg) (off : Int) (s : State) : Host.Outcome State Fault Refusal :=
  moveBy (takenDelta (!isZero (s.reg rd)) off) s

/-- `delta <- off` (R153). -/
def execB (off : Int) (s : State) : Host.Outcome State Fault Refusal :=
  moveBy (takenDelta true off) s

end Sys2Proof.Machine
end

