-- ==== Sys2Proof/Machine/LoadStore.lean ====
section
/-! DEFINITION. LDUR, STUR (`45_load_store.md`). The position is a key, checked for neither alignment nor range (R44, R147). -/

namespace Sys2Proof.Machine

/-- `x[rd] <- sext_32(MemRead(p, 4))` (R145). -/
def execLdur (rd rn : Reg) (addr : Nat) (s : State) : Host.Outcome State Fault Refusal :=
  writeAndStep rd (loadWord (s.memRead (effectivePosition (s.reg rn) addr))) s

/-- `MemWrite(p, 4, s32(x[rd]))` (R146). Only with the parameter `STUR_WIDE` set to fault (U2, not the spec's default) does a
value outside -2^31..2^31-1 stop the machine: log entry 9. -/
def execStur (rd rn : Reg) (addr : Nat) (s : State) : Host.Outcome State Fault Refusal :=
  if s.cfg.sturWide = .fault ∧ ¬FitsWord (s.reg rd) then
    .fault (.storeTooWide (effectivePosition (s.reg rn) addr) (s.reg rd))
  else storeAndStep (effectivePosition (s.reg rn) addr) (storeWord (s.reg rd)) s

end Sys2Proof.Machine
end

