-- ==== Sys2Proof/Machine/MoveWide.lean ====
section
/-! DEFINITION. MOVZ, MOVK (`44_move_wide.md`). -/

namespace Sys2Proof.Machine

/-- `x[rd] <- s64(field * 2^sh)`; the old value is not read (R140). -/
def execMovz (rd : Reg) (shcode field : Nat) (s : State) : Host.Outcome State Fault Refusal :=
  writeAndStep rd (wideField shcode field) s

/-- `x[rd] <- s64(keep | (field * 2^sh))` with `keep` the other 48 bits of `x[rd]` (R141). -/
def execMovk (rd : Reg) (shcode field : Nat) (s : State) : Host.Outcome State Fault Refusal :=
  writeAndStep rd ((s.reg rd &&& ~~~wideMask shcode) ||| wideField shcode field) s

end Sys2Proof.Machine
end

