-- ==== Sys2Proof/Machine/Shift.lean ====
section
/-! DEFINITION. LSL, ASR, LSR (`43_shift.md`). The amount is `shamt`; `rm` is extracted and ignored (R75, R92, R138). -/

namespace Sys2Proof.Machine

/-- `x[rd] <- s64(u64(x[rn]) * 2^shamt)` (R135). -/
def execLsl (rd rn : Reg) (shamt : Nat) (s : State) : Host.Outcome State Fault Refusal :=
  writeAndStep rd (s64 (u64 (s.reg rn) * 2 ^ shamt)) s

/-- `x[rd] <- floor(x[rn] / 2^shamt)`, `x[rn]` signed (R136). -/
def execAsr (rd rn : Reg) (shamt : Nat) (s : State) : Host.Outcome State Fault Refusal :=
  writeAndStep rd (s64 (Int.fdiv (s.reg rn).toInt (2 ^ shamt))) s

/-- `x[rd] <- s64(floor(u64(x[rn]) / 2^shamt))`, `x[rn]` unsigned (R137). -/
def execLsr (rd rn : Reg) (shamt : Nat) (s : State) : Host.Outcome State Fault Refusal :=
  writeAndStep rd (s64 (Int.fdiv (u64 (s.reg rn)) (2 ^ shamt))) s

end Sys2Proof.Machine
end

