-- ==== Sys2Proof/Machine/System.lean ====
section
/-! DEFINITION. NOP and BREAK (`47_system.md`). -/

namespace Sys2Proof.Machine

/-- `delta <- 1`, no other effect (R161). -/
def execNop (s : State) : Host.Outcome State Fault Refusal := moveBy 1 s

/-- `status <- HALTED`; no delta is applied (R160). The sequencer emits its trace record. -/
def execBreak (s : State) : Host.Outcome State Fault Refusal := .next s.halt

end Sys2Proof.Machine
end

