-- ==== Sys2Proof/Machine/Dispatch.lean ====
section
/-! DEFINITION. `apply`: one arm per instruction (R105). An instruction's meaning makes its effect and moves the index by
its control delta; the sequencer does the rest of the step. -/

namespace Sys2Proof.Machine

def exec (i : Instr) (s : State) : Host.Outcome State Fault Refusal :=
  match i with
  | .add rd rn rm _ => Sys2Proof.Machine.execAdd rd rn rm s
  | .sub rd rn rm _ => Sys2Proof.Machine.execSub rd rn rm s
  | .and rd rn rm _ => Sys2Proof.Machine.execAnd rd rn rm s
  | .orr rd rn rm _ => Sys2Proof.Machine.execOrr rd rn rm s
  | .eor rd rn rm _ => Sys2Proof.Machine.execEor rd rn rm s
  | .lsl rd rn _ shamt => Sys2Proof.Machine.execLsl rd rn shamt s
  | .asr rd rn _ shamt => Sys2Proof.Machine.execAsr rd rn shamt s
  | .lsr rd rn _ shamt => Sys2Proof.Machine.execLsr rd rn shamt s
  | .ldur rd rn addr => Sys2Proof.Machine.execLdur rd rn addr s
  | .stur rd rn addr => Sys2Proof.Machine.execStur rd rn addr s
  | .addi rd rn imm => Sys2Proof.Machine.execAddi rd rn imm s
  | .subi rd rn imm => Sys2Proof.Machine.execSubi rd rn imm s
  | .movz rd shcode field => Sys2Proof.Machine.execMovz rd shcode field s
  | .movk rd shcode field => Sys2Proof.Machine.execMovk rd shcode field s
  | .cbz rd off => Sys2Proof.Machine.execCbz rd off s
  | .cbnz rd off => Sys2Proof.Machine.execCbnz rd off s
  | .b off => Sys2Proof.Machine.execB off s
  | .nop => Sys2Proof.Machine.execNop s
  | .brk => Sys2Proof.Machine.execBreak s

end Sys2Proof.Machine
end

