-- ==== Sys2Proof/Machine/Sequencer.lean ====
section
/-! DEFINITION. The sequencer's step around `apply` (R107), and placing one instruction where the next step fetches. -/

namespace Sys2Proof.Machine

/-- The runaway guard has fired: a bound is set and `cycle` is past it (R107 step 9, R174). -/
def guardFires (s : State) : Bool :=
  match s.cfg.maxCycles with
  | none => false
  | some m => decide (m < s.cycle)

/-- Count the executed cycle, then test the guard (R107 steps 8 and 9). -/
def countCycle (s : State) : State :=
  let t := { s with cycle := s.cycle + 1 }
  if guardFires t then t.raise (.runawayExecution t.cycle) else t

/-- The end of a cycle: `s` is the state the instruction was fetched in, `t` the state its meaning gives. The record is
emitted; after a BREAK the step ends there; else the cycle is counted and guarded (R107 steps 5 to 9). -/
def retire (s t : State) (w : InstrWord) (i : Instr) : State :=
  let u := t.emit (traceRecord s t w i)
  if u.status = .halted then u else countCycle u

/-- Execute a decoded instruction and end its cycle; a stop of the meaning is the step's (R107 steps 4 to 9). -/
def executeCycle (s : State) (w : InstrWord) (i : Instr) : Host.Outcome State Fault Refusal :=
  match exec i s with
  | .next t => .next (retire s t w i)
  | .fault f => .fault f
  | .refused r => .refused r

/-- A fetched word: UNKNOWN raises DecodeFailure before anything is applied, an instruction is executed (R107 step 3). -/
def runDecoded (s : State) (w : InstrWord) : Decoded → Host.Outcome State Fault Refusal
  | .unknown _ => .next (s.raise (.decodeFailure s.idx w))
  | .instr i => executeCycle s w i

/-- One cycle of a running block: the bounds check, the fetch, the decode, the instruction (R107 steps 1 to 9). -/
def cycleStep (s : State) : Host.Outcome State Fault Refusal :=
  match s.fetch with
  | none => .next (s.raise (.controlFlowOutOfRange s.idx))
  | some w => runDecoded s w (decode s.cfg.rom w)

/-- The sequencer: a step exists only while RUNNING (R28, R177); of a stopped block a total step function gives the state
back unchanged (`95_test_vectors.md` V-Y8). Log entry 6. -/
def sequencerStep (s : State) : Host.Outcome State Fault Refusal :=
  if s.status = .running then cycleStep s else .next s

/-- The word whose low `nbits` bits are those of `w`, the bits above them zero. -/
def tableWord (nbits w : Nat) : InstrWord := BitVec.ofNat 32 (w % 2 ^ nbits)

/-- The instruction store with `w` in slot `k`; slots missing below it are filled with NOP words. -/
def placeAt (imem : List InstrWord) (k : Nat) (w : InstrWord) : List InstrWord :=
  imem.take k ++ List.replicate (k - imem.length) nopWord ++ w :: imem.drop (k + 1)

/-- The state whose next step fetches `w`: running, at slot `idx` (slot 0 for a negative index), that slot holding `w`. It
stands for a load from outside the machine. Log entry 11. -/
def placeWord (s : State) (w : InstrWord) : State :=
  { s with status := .running, idx := (s.idx.toNat : Int), imem := placeAt s.imem s.idx.toNat w }

end Sys2Proof.Machine
end

