-- ==== Sys2Proof/Machine/Loader.lean ====
section
/-! DEFINITION. The program loader: input contract, split at the first BREAK, positions, initial state
(`40_decode_and_step.md` section 2, R35, R190). -/

namespace Sys2Proof.Machine

/-- The value of a line of `0`/`1` characters read most significant first; none if it has another character (R100). -/
def bitsValue : List Char → Nat → Option Nat
  | [], acc => some acc
  | c :: cs, acc =>
    if c = '0' then bitsValue cs (2 * acc) else if c = '1' then bitsValue cs (2 * acc + 1) else none

/-- One input line: exactly 32 characters `0` or `1`, the first being `w[31]` (R7, R100). -/
def parseLine (line : List Char) : Option InstrWord :=
  if line.length = 32 then (bitsValue line 0).map (BitVec.ofNat 32) else none

/-- The lines' words, or the number of the first line that breaks the contract; `k` counts the lines before (R100). -/
def parseLines : Nat → List (List Char) → Except Nat (List InstrWord)
  | _, [] => .ok []
  | k, l :: ls =>
    match parseLine l with
    | none => .error k
    | some w => (parseLines (k + 1) ls).map (w :: ·)

/-- The number `N` of instruction slots: up to and including the first BREAK; every line if there is none (R101, R103). -/
def instructionCount (rom : Rom) : List InstrWord → Nat
  | [] => 0
  | w :: ws => if classify rom w = some .brk then 1 else instructionCount rom ws + 1

/-- The initial entries of the data words, the first of them line number `k`: one each, zero values included (R101, R102,
R104). -/
def dataEntries : Nat → List InstrWord → Memory
  | _, [] => []
  | k, w :: ws => (position k, decodeData w) :: dataEntries (k + 1) ws

/-- The state a run of the program starts in: reset, with the instruction store and the initial data store filled (R35,
R101, R104, R190). -/
def load (cfg : Config) (ws : List InstrWord) : State :=
  { State.reset with
    cfg := cfg
    imem := ws.take (instructionCount cfg.rom ws)
    mem := dataEntries (instructionCount cfg.rom ws) (ws.drop (instructionCount cfg.rom ws)) }

/-- The word is a NOP or a BREAK and not the canonical one (`93_implementation_defined.md` U4). -/
def nonCanonical (rom : Rom) (w : InstrWord) : Bool :=
  match classify rom w with
  | some .nop => w != nopWord
  | some .brk => w != breakWord
  | _ => false

/-- The load interface: the lines as the host presents them (R11 (a)). A malformed line is refused (R100, D23); with
`STRICT_SENTINELS` a non-canonical NOP or BREAK of the instruction segment is refused (U4). -/
def loadLines (cfg : Config) (lines : List String) : Host.Outcome State Fault Refusal :=
  match parseLines 0 (lines.map String.toList) with
  | .error k => .refused (.malformedLine k)
  | .ok ws =>
    match cfg.strictSentinels, ((load cfg ws).imem.findIdx? (nonCanonical cfg.rom)) with
    | true, some k => .refused (.nonCanonicalSentinel k)
    | _, _ => .next (load cfg ws)

end Sys2Proof.Machine
end

