-- ==== Sys2Proof/Machine/Render.lean ====
section
/-! DEFINITION. The operand string of an instruction in the syntax the spec writes its examples in (R78, R92) and the bit
grouping of a format (R80). Presentational: no step depends on it, and the original tool's exact text is not known. -/

namespace Sys2Proof.Machine

/-- `R0` .. `R31` (R20). -/
def regName (r : Reg) : String := "R" ++ toString r.val

/-- Three-register form (R78, R92). -/
def render3 (o : Op) (rd rn rm : Reg) : String := o.name ++ " " ++ regName rd ++ ", " ++ regName rn ++ ", " ++ regName rm

/-- Register and immediate form (R78, R92). -/
def renderImm (o : Op) (rd rn : Reg) (v : Int) : String :=
  o.name ++ " " ++ regName rd ++ ", " ++ regName rn ++ ", #" ++ toString v

/-- The operand string (R78). -/
def render : Instr → String
  | .add rd rn rm _ => render3 .add rd rn rm
  | .sub rd rn rm _ => render3 .sub rd rn rm
  | .and rd rn rm _ => render3 .and rd rn rm
  | .orr rd rn rm _ => render3 .orr rd rn rm
  | .eor rd rn rm _ => render3 .eor rd rn rm
  | .lsl rd rn _ shamt => renderImm .lsl rd rn shamt
  | .asr rd rn _ shamt => renderImm .asr rd rn shamt
  | .lsr rd rn _ shamt => renderImm .lsr rd rn shamt
  | .ldur rd rn addr => "LDUR " ++ regName rd ++ ", [" ++ regName rn ++ ", #" ++ toString addr ++ "]"
  | .stur rd rn addr => "STUR " ++ regName rd ++ ", [" ++ regName rn ++ ", #" ++ toString addr ++ "]"
  | .addi rd rn imm => renderImm .addi rd rn imm
  | .subi rd rn imm => renderImm .subi rd rn imm
  | .movz rd shcode field => "MOVZ " ++ regName rd ++ ", " ++ toString field ++ ", LSL " ++ toString (wideShift shcode)
  | .movk rd shcode field => "MOVK " ++ regName rd ++ ", " ++ toString field ++ ", LSL " ++ toString (wideShift shcode)
  | .cbz rd off => "CBZ " ++ regName rd ++ ", #" ++ toString off
  | .cbnz rd off => "CBNZ " ++ regName rd ++ ", #" ++ toString off
  | .b off => "B #" ++ toString off
  | .nop => "NOP"
  | .brk => "BREAK"

/-- The widths of a format's printed bit groups, from the most significant bit; none where the spec gives no grouping (R80). -/
def bitGroups : Format → Option (List Nat)
  | .r => some [11, 5, 6, 5, 5]
  | .d => some [11, 9, 2, 5, 5]
  | .i => some [10, 12, 5, 5]
  | .im => some [9, 2, 16, 5]
  | .cb => some [8, 19, 5]
  | .b => some [6, 26]
  | .nop => none
  | .brk => none

end Sys2Proof.Machine
end

