-- ==== Sys2Proof/Safety.lean ====
section
/-! DEFINITION. The terms the statements use: the spec's number systems, what an instruction reads and writes, what stays
the same, and the invariant of the block. No step calls anything here. -/

namespace Sys2Proof.Machine

/-! ## Values -/

/-- The register value is `s64(v)`: the integer in -2^63..2^63-1 congruent to `v` modulo 2^64 (R8). The range is the
type's; the congruence is what is said. -/
def IsS64 (x : Word) (v : Int) : Prop := ∃ k : Int, x.toInt = v + k * 2 ^ 64

/-- The data word is `s32(v)` (R8). -/
def IsS32 (d : Data) (v : Int) : Prop := ∃ k : Int, d.toInt = v + k * 2 ^ 32

/-- `p` is the position `s64(base + 4*addr)` (R47, R147). -/
def IsPosition (p : Int) (base : Word) (addr : Nat) : Prop :=
  PositionOk p ∧ ∃ k : Int, p = base.toInt + 4 * (addr : Int) + k * 2 ^ 64

/-! ## What an instruction names (R22) -/

/-- The registers an instruction reads (R22, second column). -/
def readsRegs : Instr → List Reg
  | .add _ rn rm _ => [rn, rm]
  | .sub _ rn rm _ => [rn, rm]
  | .and _ rn rm _ => [rn, rm]
  | .orr _ rn rm _ => [rn, rm]
  | .eor _ rn rm _ => [rn, rm]
  | .lsl _ rn _ _ => [rn]
  | .asr _ rn _ _ => [rn]
  | .lsr _ rn _ _ => [rn]
  | .ldur _ rn _ => [rn]
  | .stur rd rn _ => [rn, rd]
  | .addi _ rn _ => [rn]
  | .subi _ rn _ => [rn]
  | .movz _ _ _ => []
  | .movk rd _ _ => [rd]
  | .cbz rd _ => [rd]
  | .cbnz rd _ => [rd]
  | .b _ => []
  | .nop => []
  | .brk => []

/-- The register an instruction writes, if it writes one (R22, third column). -/
def writesReg : Instr → Option Reg
  | .add rd _ _ _ => some rd
  | .sub rd _ _ _ => some rd
  | .and rd _ _ _ => some rd
  | .orr rd _ _ _ => some rd
  | .eor rd _ _ _ => some rd
  | .lsl rd _ _ _ => some rd
  | .asr rd _ _ _ => some rd
  | .lsr rd _ _ _ => some rd
  | .ldur rd _ _ => some rd
  | .stur _ _ _ => none
  | .addi rd _ _ => some rd
  | .subi rd _ _ => some rd
  | .movz rd _ _ => some rd
  | .movk rd _ _ => some rd
  | .cbz _ _ => none
  | .cbnz _ _ => none
  | .b _ => none
  | .nop => none
  | .brk => none

/-- The registers an instruction names are different ones, and a compare branch does not branch by 1: operands with which
every register of R22's table shows. With SUB Rd, Rn, Rn the difference is 0 whatever `x[rn]` holds, and with `off = 1` taken
and untaken are alike (R151). -/
def operandsApart : Instr → Bool
  | .add rd rn rm _ => rd != rn && rd != rm && rn != rm
  | .sub rd rn rm _ => rd != rn && rd != rm && rn != rm
  | .and rd rn rm _ => rd != rn && rd != rm && rn != rm
  | .orr rd rn rm _ => rd != rn && rd != rm && rn != rm
  | .eor rd rn rm _ => rd != rn && rd != rm && rn != rm
  | .lsl rd rn _ _ => rd != rn
  | .asr rd rn _ _ => rd != rn
  | .lsr rd rn _ _ => rd != rn
  | .ldur rd rn _ => rd != rn
  | .stur rd rn _ => rd != rn
  | .addi rd rn _ => rd != rn
  | .subi rd rn _ => rd != rn
  | .movz _ _ _ => true
  | .movk _ _ _ => true
  | .cbz _ off => off != 1
  | .cbnz _ off => off != 1
  | .b _ => true
  | .nop => true
  | .brk => true

/-- The position an instruction stores to, if it stores: STUR alone (R22, R146). -/
def storesAt (s : State) : Instr → Option Int
  | .stur _ rn addr => some (effectivePosition (s.reg rn) addr)
  | _ => none

/-- The output of the branch offset calculator, in the spec's words (R150). -/
def controlDelta (s : State) : Instr → Int
  | .b off => off
  | .cbz rd off => if (s.reg rd).toInt = 0 then off else 1
  | .cbnz rd off => if (s.reg rd).toInt ≠ 0 then off else 1
  | _ => 1

/-! ## Frames -/

/-- The effect of an instruction left everything else as it was: the registers but `rd`, the store but position `p` (entry
and value at every other position), the status, the parameters, the program, the cycle counter and the trace. The index may
change. -/
structure Frame (rd : Option Reg) (p : Option Int) (s t : State) : Prop where
  regs : ∀ r, some r ≠ rd → t.reg r = s.reg r
  store : ∀ q, some q ≠ p → Memory.entry t.mem q = Memory.entry s.mem q
  status : t.status = s.status
  cfg : t.cfg = s.cfg
  imem : t.imem = s.imem
  cycle : t.cycle = s.cycle
  trace : t.trace = s.trace

/-! ## Words of the opcode table -/

/-- Every word of a row, `(w & mask) = match`, decodes with the default ROM to the row's mnemonic and the fields of its
format (R81). -/
def RowDecodes (mask value : InstrWord) (o : Op) : Prop :=
  ∀ w : InstrWord, w &&& mask = value → decode Rom.default w = .instr (unpack o w)

/-- The bits of a word that its mnemonic's format does not read: the D gap `w[11:10]`, `w[20:0]` of NOP and BREAK (R75). -/
def unreadBits : Op → InstrWord
  | .ldur => 0x00000C00#32
  | .stur => 0x00000C00#32
  | .nop => 0x001FFFFF#32
  | .brk => 0x001FFFFF#32
  | _ => 0#32

/-- The mnemonic that R73's list of ranges gives an 11-bit leading field; `""` for every other value. -/
def rangeMnemonic (o : Nat) : String :=
  if 160 ≤ o ∧ o ≤ 191 then "B"
  else if o = 1104 then "AND"
  else if o = 1112 then "ADD"
  else if 1160 ≤ o ∧ o ≤ 1161 then "ADDI"
  else if o = 1360 then "ORR"
  else if 1440 ≤ o ∧ o ≤ 1447 then "CBZ"
  else if 1448 ≤ o ∧ o ≤ 1455 then "CBNZ"
  else if o = 1624 then "SUB"
  else if 1672 ≤ o ∧ o ≤ 1673 then "SUBI"
  else if 1684 ≤ o ∧ o ≤ 1687 then "MOVZ"
  else if o = 1690 then "LSR"
  else if o = 1691 then "LSL"
  else if o = 1692 then "ASR"
  else if o = 1872 then "EOR"
  else if 1940 ≤ o ∧ o ≤ 1943 then "MOVK"
  else if o = 1984 then "STUR"
  else if o = 1986 then "LDUR"
  else if o = 0 then "NOP"
  else if o = 2038 then "BREAK"
  else ""

/-! ## The run -/

/-- The step about to be taken executes `i`, fetched as `w` (R107 steps 1 to 3 passed). -/
def Executes (s : State) (w : InstrWord) (i : Instr) : Prop :=
  s.status = .running ∧ s.fetch = some w ∧ decode s.cfg.rom w = .instr i

/-- A final state: a run that ended normally (R184). A FAULT is never final. -/
def State.Final (s : State) : Prop := s.status = .halted

/-- `MAX_CYCLES` as a bound on the cycles a run executes: at least one, since the guard is tested after an instruction
(R107 step 9; log entry 5). -/
def cycleBound (m : Nat) : Nat := max m 1

/-- A recorded error says what happened (R170, R171, R172, R174). -/
def ErrorKind.Truthful (s : State) : ErrorKind → Prop
  | .decodeFailure i w => i = s.idx ∧ s.fetch = some w ∧ decode s.cfg.rom w = .unknown w
  | .controlFlowOutOfRange i => i = s.idx ∧ (i < 0 ∨ (s.slots : Int) ≤ i)
  | .runawayExecution c => c = s.cycle ∧ ∃ m, s.cfg.maxCycles = some m ∧ m < c

/-- The invariant of the block. -/
structure Inv (s : State) : Prop where
  /-- The store is in canonical form (R40, R54), and so is the dump of every record (R182). -/
  store : Memory.wf s.mem
  dumps : ∀ r ∈ s.trace, Memory.wf r.mem
  /-- One record for each executed cycle: the counter started at 1 and a BREAK is traced without counting (R27, R160). -/
  count : s.trace.length + 1 = s.cycle + (if s.status = .halted then 1 else 0)
  /-- The records are numbered 1, 2, 3, … (R182, R194). -/
  numbered : ∀ k r, s.trace[k]? = some r → r.cycle = k + 1
  /-- The registers and the store are those of the last record, at a fault too (R176). -/
  last : ∀ r, s.trace.getLast? = some r → r.regs = s.regs ∧ r.mem = s.mem
  /-- The counter stays within the bound, and passes it by one only in RunawayExecution (R27, R174). -/
  bound : ∀ m, s.cfg.maxCycles = some m → s.cycle ≤ cycleBound m ∨
    (s.status = .fault (.runawayExecution s.cycle) ∧ s.cycle = cycleBound m + 1)
  /-- A halted block stands at the BREAK it executed: neither index nor counter moved (R160). -/
  halted : s.status = .halted → ∃ w, s.fetch = some w ∧ decode s.cfg.rom w = .instr .brk
  /-- A fault records what happened (R170). -/
  fault : ∀ k, s.status = .fault k → k.Truthful s

end Sys2Proof.Machine
end

