-- ==== Sys2Proof/Certificates/Slice0/Obligations.lean ====
section
/-! DEFINITION. The statements for the provers. A docstring names the rule of `spec/`; where the rule's own text carries a
decision mark of the spec's (D<n> of `92_eei_decisions.md`), the docstring says so and names the log entry. -/

open Sys2Proof Sys2Proof.Machine

/-! ## Encoding -/

/-- R81, for every prefix-free ROM: a word that carries an instruction's opcode and field values, whatever its unread bits
hold, decodes to that instruction, every field as it was put there. With no unread bit changed this is
`decode (encode i) = i`. Which bits are unread (the D gap, the low 21 bits of NOP and BREAK) is the spec's decisions D2, D3,
D4 and D27 (log entry 12). -/
def Obligations.DecodeRecoversEveryEncodedInstruction : Prop :=
  ∀ (rom : Rom) (i : Instr) (w : InstrWord), rom.PrefixFree → i.WellFormed →
    (w ^^^ encode rom i) &&& ~~~unreadBits i.op = 0#32 → decode rom w = .instr i

/-- The rows of the opcode table, each by its own mask and match: every word of a row decodes to the row's mnemonic, and a
word of no row is UNKNOWN, kept with the tag (R74). Fifteen of the patterns are the spec's defaults, not the source's (D1,
log entry 3). -/
def Obligations.TableRowsDecodeAndTheRestIsUnknown : Prop :=
  let rows : List (InstrWord × InstrWord × Op) :=
    [(0xFFE00000#32, 0x8B000000#32, .add), (0xFFE00000#32, 0xCB000000#32, .sub), (0xFFE00000#32, 0x8A000000#32, .and),
     (0xFFE00000#32, 0xAA000000#32, .orr), (0xFFE00000#32, 0xEA000000#32, .eor), (0xFFE00000#32, 0xD3600000#32, .lsl),
     (0xFFE00000#32, 0xD3800000#32, .asr), (0xFFE00000#32, 0xD3400000#32, .lsr), (0xFFE00000#32, 0xF8400000#32, .ldur),
     (0xFFE00000#32, 0xF8000000#32, .stur), (0xFFC00000#32, 0x91000000#32, .addi), (0xFFC00000#32, 0xD1000000#32, .subi),
     (0xFF800000#32, 0xD2800000#32, .movz), (0xFF800000#32, 0xF2800000#32, .movk), (0xFF000000#32, 0xB4000000#32, .cbz),
     (0xFF000000#32, 0xB5000000#32, .cbnz), (0xFC000000#32, 0x14000000#32, .b), (0xFFE00000#32, 0x00000000#32, .nop),
     (0xFFE00000#32, 0xFEC00000#32, .brk)]
  (∀ row ∈ rows, RowDecodes row.1 row.2.1 row.2.2) ∧
  ∀ w : InstrWord, (∀ row ∈ rows, w &&& row.1 ≠ row.2.1) → decode Rom.default w = .unknown w

/-- R73: with a prefix-free ROM no word is selected by two mnemonics, so the first match is the only match; the default ROM
is prefix-free, and its classes are the listed ranges of the 11-bit leading field. The default patterns are the spec's (D1,
log entry 3). -/
def Obligations.ClassificationOrderNeverDecides : Prop :=
  (∀ (rom : Rom) (w : InstrWord) (o : Op), rom.PrefixFree → (classify rom w = some o ↔ rom.selects w o = true)) ∧
  (∀ (rom : Rom) (w : InstrWord) (o p : Op), rom.PrefixFree → rom.selects w o = true → rom.selects w p = true → o = p) ∧
  Rom.default.PrefixFree ∧
  ∀ w : InstrWord, (decode Rom.default w).mnemonic = rangeMnemonic (w.toNat / 2 ^ 21)

/-- R66: the in-width inversion rule is two's complement, over all N bits of the field (the spec's decision D32), for every
width; encoding then decoding is the identity over the whole range; the four uses (N = 12, 19, 26 and, for data words,
32) and the worked examples. -/
def Obligations.SignExtensionIsTwosComplement : Prop :=
  (∀ (n : Nat) (v : BitVec n), 0 < n → sext v = if v.toNat < 2 ^ (n - 1) then (v.toNat : Int) else (v.toNat : Int) - 2 ^ n) ∧
  (∀ (n : Nat) (k : Int), 0 < n → -2 ^ (n - 1) ≤ k → k < 2 ^ (n - 1) → sext (BitVec.ofInt n k) = k) ∧
  (∀ w : InstrWord, fieldImm w = sext (slice w 21 10) ∧ fieldOffCB w = sext (slice w 23 5) ∧
    fieldOffB w = sext (slice w 25 0) ∧ (decodeData w).toInt = sext w) ∧
  sext 0xFFB#12 = -5 ∧ sext 0x800#12 = -2048 ∧ sext 0x7FF#12 = 2047 ∧ sext 0x7FFFE#19 = -2 ∧ sext 0x3FFFFF9#26 = -7

/-- R75 (the spec's decision D27): the unused bits are never illegal and change nothing. Words that differ only in bits
their format does not read decode alike, with any ROM; `shamt` of the five register operations and `rm` of the shifts are
extracted and change no effect. -/
def Obligations.UnusedBitsChangeNothing : Prop :=
  (∀ (rom : Rom) (w v : InstrWord) (o : Op), classify rom w = some o → (w ^^^ v) &&& ~~~unreadBits o = 0#32 →
    decode rom v = decode rom w) ∧
  (∀ (s : State) (rd rn rm : Reg) (a b : Nat),
    exec (.add rd rn rm a) s = exec (.add rd rn rm b) s ∧ exec (.sub rd rn rm a) s = exec (.sub rd rn rm b) s ∧
    exec (.and rd rn rm a) s = exec (.and rd rn rm b) s ∧ exec (.orr rd rn rm a) s = exec (.orr rd rn rm b) s ∧
    exec (.eor rd rn rm a) s = exec (.eor rd rn rm b) s) ∧
  (∀ (s : State) (rd rn a b : Reg) (shamt : Nat),
    exec (.lsl rd rn a shamt) s = exec (.lsl rd rn b shamt) s ∧ exec (.asr rd rn a shamt) s = exec (.asr rd rn b shamt) s ∧
    exec (.lsr rd rn a shamt) s = exec (.lsr rd rn b shamt) s)

/-- Words of `95_test_vectors.md` (table V-E), one or more of each format, decode to what they are listed as. -/
def Obligations.ListedWordsDecodeAsListed : Prop :=
  decode Rom.default 0x8B1FFFFF#32 = .instr (.add 31 31 31 63) ∧
  decode Rom.default 0xD360FC22#32 = .instr (.lsl 2 1 0 63) ∧
  decode Rom.default 0xF85FFFFF#32 = .instr (.ldur 31 31 511) ∧
  decode Rom.default 0xF8001043#32 = .instr (.stur 3 2 1) ∧
  decode Rom.default 0x91200022#32 = .instr (.addi 2 1 (-2048)) ∧
  decode Rom.default 0xD2C00020#32 = .instr (.movz 0 2 1) ∧
  decode Rom.default 0xF2FFFFFF#32 = .instr (.movk 31 3 65535) ∧
  decode Rom.default 0xB4800000#32 = .instr (.cbz 0 (-262144)) ∧
  decode Rom.default 0xB57FFFFF#32 = .instr (.cbnz 31 262143) ∧
  decode Rom.default 0x16000000#32 = .instr (.b (-33554432)) ∧
  decode Rom.default 0x17FFFFFF#32 = .instr (.b (-1)) ∧
  decode Rom.default 0x001FFFFF#32 = .instr .nop ∧
  decode Rom.default 0xFEC00000#32 = .instr .brk ∧
  decode Rom.default 0x18000000#32 = .unknown 0x18000000#32

/-! ## Results: what each instruction does, and that it completes -/

/-- R121. The sum wraps modulo 2^64, silently: the spec's decision D6 (log entry 14). -/
def Obligations.AddWritesTheWrappedSum : Prop :=
  RowDecodes 0xFFE00000#32 0x8B000000#32 .add ∧
  ∀ (s : State) (rd rn rm : Reg) (shamt : Nat), ∃ t, exec (.add rd rn rm shamt) s = .next t ∧
    IsS64 (t.reg rd) ((s.reg rn).toInt + (s.reg rm).toInt) ∧ t.idx = s.idx + 1

/-- R122. `Rn` minus `Rm`, wrapped (the spec's decision D6, log entry 14). The pattern is the spec's default (D1, log entry
3). -/
def Obligations.SubWritesTheWrappedDifference : Prop :=
  RowDecodes 0xFFE00000#32 0xCB000000#32 .sub ∧
  ∀ (s : State) (rd rn rm : Reg) (shamt : Nat), ∃ t, exec (.sub rd rn rm shamt) s = .next t ∧
    IsS64 (t.reg rd) ((s.reg rn).toInt - (s.reg rm).toInt) ∧ t.idx = s.idx + 1

/-- R123. The pattern is the spec's default (D1, log entry 3). -/
def Obligations.AndWritesTheBitwiseAnd : Prop :=
  RowDecodes 0xFFE00000#32 0x8A000000#32 .and ∧
  ∀ (s : State) (rd rn rm : Reg) (shamt : Nat), ∃ t, exec (.and rd rn rm shamt) s = .next t ∧
    (∀ j, (t.reg rd).getLsbD j = ((s.reg rn).getLsbD j && (s.reg rm).getLsbD j)) ∧ t.idx = s.idx + 1

/-- R124. The pattern is the spec's default (D1, log entry 3). -/
def Obligations.OrrWritesTheBitwiseOr : Prop :=
  RowDecodes 0xFFE00000#32 0xAA000000#32 .orr ∧
  ∀ (s : State) (rd rn rm : Reg) (shamt : Nat), ∃ t, exec (.orr rd rn rm shamt) s = .next t ∧
    (∀ j, (t.reg rd).getLsbD j = ((s.reg rn).getLsbD j || (s.reg rm).getLsbD j)) ∧ t.idx = s.idx + 1

/-- EOR. Its pattern 1872 is the spec's default, not the source's (D1, log entry 3). -/
def Obligations.EorWritesTheBitwiseXor : Prop :=
  RowDecodes 0xFFE00000#32 0xEA000000#32 .eor ∧
  ∀ (s : State) (rd rn rm : Reg) (shamt : Nat), ∃ t, exec (.eor rd rn rm shamt) s = .next t ∧
    (∀ j, (t.reg rd).getLsbD j = Bool.xor ((s.reg rn).getLsbD j) ((s.reg rm).getLsbD j)) ∧ t.idx = s.idx + 1

/-- R130. The immediate is signed and used as it is; the sum wraps (the spec's decision D6, log entry 14). The pattern is the
spec's default (D1, log entry 3). -/
def Obligations.AddiWritesTheWrappedSum : Prop :=
  RowDecodes 0xFFC00000#32 0x91000000#32 .addi ∧
  ∀ (s : State) (rd rn : Reg) (imm : Int), ∃ t, exec (.addi rd rn imm) s = .next t ∧
    IsS64 (t.reg rd) ((s.reg rn).toInt + imm) ∧ t.idx = s.idx + 1

/-- R131. The signed immediate is subtracted; the difference wraps (the spec's decision D6, log entry 14). The pattern is the
spec's default (D1, log entry 3). -/
def Obligations.SubiWritesTheWrappedDifference : Prop :=
  RowDecodes 0xFFC00000#32 0xD1000000#32 .subi ∧
  ∀ (s : State) (rd rn : Reg) (imm : Int), ∃ t, exec (.subi rd rn imm) s = .next t ∧
    IsS64 (t.reg rd) ((s.reg rn).toInt - imm) ∧ t.idx = s.idx + 1

/-- LSL: the low 64 bits of `u64(x[rn]) * 2^shamt`; bits past bit 63 are lost (the spec's decision D6, log entry 14). -/
def Obligations.LslWritesTheLowBitsOfTheProduct : Prop :=
  RowDecodes 0xFFE00000#32 0xD3600000#32 .lsl ∧
  ∀ (s : State) (rd rn rm : Reg) (shamt : Nat), ∃ t, exec (.lsl rd rn rm shamt) s = .next t ∧
    (t.reg rd).toNat = (s.reg rn).toNat * 2 ^ shamt % 2 ^ 64 ∧ t.idx = s.idx + 1

/-- R136: the quotient of the signed value by 2^shamt, rounded toward minus infinity. The pattern is the spec's default
(D1, log entry 3). -/
def Obligations.AsrWritesTheFloorOfTheSignedQuotient : Prop :=
  RowDecodes 0xFFE00000#32 0xD3800000#32 .asr ∧
  ∀ (s : State) (rd rn rm : Reg) (shamt : Nat), ∃ t, exec (.asr rd rn rm shamt) s = .next t ∧
    (t.reg rd).toInt * 2 ^ shamt ≤ (s.reg rn).toInt ∧ (s.reg rn).toInt < ((t.reg rd).toInt + 1) * 2 ^ shamt ∧
    t.idx = s.idx + 1

/-- R137: the quotient of the unsigned pattern by 2^shamt. The pattern is the spec's default (D1, log entry 3). -/
def Obligations.LsrWritesTheUnsignedQuotient : Prop :=
  RowDecodes 0xFFE00000#32 0xD3400000#32 .lsr ∧
  ∀ (s : State) (rd rn rm : Reg) (shamt : Nat), ∃ t, exec (.lsr rd rn rm shamt) s = .next t ∧
    (t.reg rd).toNat = (s.reg rn).toNat / 2 ^ shamt ∧ t.idx = s.idx + 1

/-- MOVZ: the field at bits `sh+15 : sh`, every other bit 0 (the spec's decision D9, log entry 14). -/
def Obligations.MovzWritesTheFieldAndZeroes : Prop :=
  RowDecodes 0xFF800000#32 0xD2800000#32 .movz ∧
  ∀ (s : State) (rd : Reg) (shcode field : Nat), WideOk shcode field → ∃ t, exec (.movz rd shcode field) s = .next t ∧
    (∀ j, j < 64 → (t.reg rd).getLsbD j =
      if 16 * shcode ≤ j ∧ j < 16 * shcode + 16 then field.testBit (j - 16 * shcode) else false) ∧ t.idx = s.idx + 1

/-- MOVK: bits `sh+15 : sh` replaced by the field, the other 48 bits kept (the spec's decision D8, log entry 14). -/
def Obligations.MovkReplacesOneSlice : Prop :=
  RowDecodes 0xFF800000#32 0xF2800000#32 .movk ∧
  ∀ (s : State) (rd : Reg) (shcode field : Nat), WideOk shcode field → ∃ t, exec (.movk rd shcode field) s = .next t ∧
    (∀ j, j < 64 → (t.reg rd).getLsbD j =
      if 16 * shcode ≤ j ∧ j < 16 * shcode + 16 then field.testBit (j - 16 * shcode) else (s.reg rd).getLsbD j) ∧
    t.idx = s.idx + 1

/-- The source's arithmetic form of MOVK, `Rd + field*2^sh - old_slice` with the slice in place, is the same result (the
spec's decision D8, log entry 14). -/
def Obligations.MovkAgreesWithTheArithmeticForm : Prop :=
  ∀ (s : State) (rd : Reg) (shcode field : Nat), WideOk shcode field → ∃ t, exec (.movk rd shcode field) s = .next t ∧
    IsS64 (t.reg rd) ((s.reg rd).toInt + (field : Int) * 2 ^ (16 * shcode) -
      (((s.reg rd).toNat / 2 ^ (16 * shcode) % 65536 : Nat) : Int) * 2 ^ (16 * shcode))

/-- The effective position is the `s64` value of `x[rn] + 4*addr`: exact, unless the sum leaves the 64-bit range (the
spec's decision D13, log entry 14). -/
def Obligations.EffectivePositionIsTheWrappedSum : Prop :=
  ∀ (base : Word) (addr : Nat) (p : Int), effectivePosition base addr = p ↔ IsPosition p base addr

/-- LDUR: the register receives the value of the entry, 0 when there is none, as a signed integer (the spec's decision D10,
log entry 14). -/
def Obligations.LdurLoadsTheEntryOrZero : Prop :=
  RowDecodes 0xFFE00000#32 0xF8400000#32 .ldur ∧
  ∀ (s : State) (rd rn : Reg) (addr : Nat) (p : Int), IsPosition p (s.reg rn) addr →
    ∃ t, exec (.ldur rd rn addr) s = .next t ∧
      (∀ d, Memory.entry s.mem p = some d → (t.reg rd).toInt = d.toInt) ∧
      (Memory.entry s.mem p = none → (t.reg rd).toInt = 0) ∧ t.mem = s.mem ∧ t.idx = s.idx + 1

/-- STUR, truncating (the spec's default, decision D11, log entry 9): the entry at the position holds the low 32 bits of the
register. With `STUR_WIDE` set to fault it stores the same for every value that fits. -/
def Obligations.SturStoresTheLowWord : Prop :=
  RowDecodes 0xFFE00000#32 0xF8000000#32 .stur ∧
  ∀ (s : State) (rd rn : Reg) (addr : Nat) (p : Int), IsPosition p (s.reg rn) addr →
    s.cfg.sturWide = .truncate ∨ FitsWord (s.reg rd) →
    ∃ t d, exec (.stur rd rn addr) s = .next t ∧ Memory.entry t.mem p = some d ∧ IsS32 d (s.reg rd).toInt ∧
      t.idx = s.idx + 1

/-- With `STUR_WIDE` set to fault, a value outside -2^31..2^31-1 stops the machine by name: the parameter of
`93_implementation_defined.md` U2 (log entry 9), not the spec's default. -/
def Obligations.StrictSturStopsOnAWideValue : Prop :=
  ∀ (s : State) (rd rn : Reg) (addr : Nat) (p : Int), IsPosition p (s.reg rn) addr → s.cfg.sturWide = .fault →
    (s.reg rd).toInt < -2 ^ 31 ∨ 2 ^ 31 ≤ (s.reg rd).toInt →
    exec (.stur rd rn addr) s = .fault (.storeTooWide p (s.reg rd))

/-- R151. The pattern is the spec's default (D1, log entry 3). -/
def Obligations.CbzBranchesOnZero : Prop :=
  RowDecodes 0xFF000000#32 0xB4000000#32 .cbz ∧
  ∀ (s : State) (rd : Reg) (off : Int), ∃ t, exec (.cbz rd off) s = .next t ∧
    ((s.reg rd).toInt = 0 → t.idx = s.idx + off) ∧ ((s.reg rd).toInt ≠ 0 → t.idx = s.idx + 1)

/-- R152. The pattern is the spec's default (D1, log entry 3). -/
def Obligations.CbnzBranchesOnNonzero : Prop :=
  RowDecodes 0xFF000000#32 0xB5000000#32 .cbnz ∧
  ∀ (s : State) (rd : Reg) (off : Int), ∃ t, exec (.cbnz rd off) s = .next t ∧
    ((s.reg rd).toInt ≠ 0 → t.idx = s.idx + off) ∧ ((s.reg rd).toInt = 0 → t.idx = s.idx + 1)

/-- R153. -/
def Obligations.BranchMovesTheIndexByItsOffset : Prop :=
  RowDecodes 0xFC000000#32 0x14000000#32 .b ∧
  ∀ (s : State) (off : Int), ∃ t, exec (.b off) s = .next t ∧ t.idx = s.idx + off ∧ Frame none none s t

/-- R161. No state change but the index. -/
def Obligations.NopOnlyMovesTheIndex : Prop :=
  RowDecodes 0xFFE00000#32 0x00000000#32 .nop ∧
  ∀ s : State, ∃ t, exec .nop s = .next t ∧ t.idx = s.idx + 1 ∧ Frame none none s t

/-- BREAK: the status becomes HALTED and nothing else changes, the index included. That the low 21 bits of its word are
ignored is the spec's decision D4 (log entry 12). -/
def Obligations.BreakHaltsAndChangesNothingElse : Prop :=
  RowDecodes 0xFFE00000#32 0xFEC00000#32 .brk ∧
  ∀ s : State, ∃ t, exec .brk s = .next t ∧ t.status = .halted ∧ t.idx = s.idx ∧ t.regs = s.regs ∧ t.mem = s.mem ∧
    t.cfg = s.cfg ∧ t.imem = s.imem ∧ t.cycle = s.cycle ∧ t.trace = s.trace

/-- With truncating stores every instruction completes in every state, and no instruction is refused whatever the
parameters: instructions raise nothing of their own (R170). -/
def Obligations.EveryInstructionCompletes : Prop :=
  (∀ (i : Instr) (s : State), s.cfg.sturWide = .truncate → ∃ t, exec i s = .next t) ∧
  ∀ (i : Instr) (s : State) (r : Refusal), exec i s ≠ .refused r

/-! ## Frames -/

/-- The thirteen writing instructions change their destination register and the index, and nothing else. -/
def Obligations.WritingInstructionsChangeOnlyRd : Prop :=
  ∀ (i : Instr) (rd : Reg) (s t : State), writesReg i = some rd → exec i s = .next t → Frame (some rd) none s t

/-- STUR changes the entry at its effective position, computed before the store, and the index; no register, no other
entry. -/
def Obligations.SturChangesOnlyItsPosition : Prop :=
  ∀ (rd rn : Reg) (addr : Nat) (s t : State), exec (.stur rd rn addr) s = .next t →
    Frame none (some (effectivePosition (s.reg rn) addr)) s t

/-- CBZ, CBNZ, B and NOP change the index and nothing else. -/
def Obligations.BranchesAndNopChangeOnlyTheIndex : Prop :=
  ∀ (rd : Reg) (off : Int) (s t : State),
    exec (.cbz rd off) s = .next t ∨ exec (.cbnz rd off) s = .next t ∨ exec (.b off) s = .next t ∨
      exec .nop s = .next t → Frame none none s t

/-- R22: the registers an instruction reads and writes are those of the table. No other: where it completes in two states
that agree on the registers it reads and on the store, it gives the same destination value, the same store and the same
control delta, and it writes no register but the one the table names. And each of them: for every well-formed instruction
whose operands let it show, each register listed as read can change the effect when nothing else differs, and the register
listed as written can change. -/
def Obligations.RegistersReadAndWrittenAreThoseListed : Prop :=
  (∀ (i : Instr) (s s' t t' : State), (∀ r ∈ readsRegs i, s.reg r = s'.reg r) → s.mem = s'.mem →
    exec i s = .next t → exec i s' = .next t' →
    (∀ r, writesReg i = some r → t.reg r = t'.reg r) ∧ t.mem = t'.mem ∧ t.idx - s.idx = t'.idx - s'.idx) ∧
  (∀ (i : Instr) (s t : State) (r : Reg), exec i s = .next t → writesReg i ≠ some r → t.reg r = s.reg r) ∧
  ∀ i : Instr, i.WellFormed → operandsApart i = true →
    (∀ r ∈ readsRegs i, ∃ s s' t t' : State, (∀ q, q ≠ r → s.reg q = s'.reg q) ∧ s.mem = s'.mem ∧ s.idx = s'.idx ∧
      s.cfg = s'.cfg ∧ exec i s = .next t ∧ exec i s' = .next t' ∧
      ((∃ q, writesReg i = some q ∧ t.reg q ≠ t'.reg q) ∨ t.mem ≠ t'.mem ∨ t.idx ≠ t'.idx)) ∧
    ∀ r, writesReg i = some r → ∃ s t : State, exec i s = .next t ∧ t.reg r ≠ s.reg r

/-- R150, R26: the index moves by the control delta, exactly, for every instruction but BREAK, which applies none. -/
def Obligations.IndexMovesByTheControlDelta : Prop :=
  ∀ (i : Instr) (s t : State), exec i s = .next t →
    (i ≠ .brk → t.idx = s.idx + controlDelta s i) ∧ (i = .brk → t.idx = s.idx)

/-! ## The data store -/

/-- R42: a store replaces or inserts the one entry and leaves every other alone. -/
def Obligations.WriteThenReadGivesTheValue : Prop :=
  ∀ (m : Memory) (p : Int) (v : Data),
    Memory.entry (Memory.write m p v) p = some v ∧ Memory.read (Memory.write m p v) p = v ∧
    ∀ q, q ≠ p → Memory.entry (Memory.write m p v) q = Memory.entry m q

/-- Insertion order is not state (R54): canonical stores with the same entries are equal. -/
def Obligations.CanonicalStoresAreEqualByEntries : Prop :=
  ∀ m n : Memory, m.wf → n.wf → (∀ p, Memory.entry m p = Memory.entry n p) → m = n

/-- R41: an entry reads as its value, an absent position as 0. -/
def Obligations.AbsentPositionReadsZero : Prop :=
  ∀ (m : Memory) (p : Int), m.wf →
    (∀ v, (p, v) ∈ m → Memory.read m p = v) ∧ ((∀ v, (p, v) ∉ m) → Memory.read m p = 0#32)

/-- The source's memory law (`95_test_vectors.md` E4): a STUR followed by a LDUR of the same position loads the stored value,
for values that fit in 32 bits. -/
def Obligations.LoadAfterStoreGivesTheStoredValue : Prop :=
  ∀ (s t u : State) (rd rn rd' rn' : Reg) (addr addr' : Nat), FitsWord (s.reg rd) →
    exec (.stur rd rn addr) s = .next t → effectivePosition (t.reg rn') addr' = effectivePosition (s.reg rn) addr →
    exec (.ldur rd' rn' addr') t = .next u → u.reg rd' = s.reg rd

/-! ## The step -/

/-- A step runs the decoded instruction, and this is all it adds: the trace record after the effect, the cycle count and
the guard, or the end of the run after a BREAK (R107 steps 4 to 9; the guard's place is the spec's decision D16, log entry
5). -/
def Obligations.StepRunsTheDecodedInstruction : Prop :=
  ∀ (s : State) (k : Nat) (w : InstrWord) (i : Instr), s.status = .running → s.idx = (k : Int) → s.imem[k]? = some w →
    decode s.cfg.rom w = .instr i →
    (∀ t, exec i s = .next t →
      let r : TraceRecord := ⟨s.cycle, 96 + 4 * s.idx, w, i, t.regs, t.mem⟩
      (t.status = .halted → step s = .next { t with trace := t.trace ++ [r] }) ∧
      (t.status ≠ .halted → (∀ m, t.cfg.maxCycles = some m → t.cycle + 1 ≤ m) →
        step s = .next { t with trace := t.trace ++ [r], cycle := t.cycle + 1 }) ∧
      (t.status ≠ .halted → (∃ m, t.cfg.maxCycles = some m ∧ m < t.cycle + 1) →
        step s = .next { t with trace := t.trace ++ [r], cycle := t.cycle + 1,
                                status := .fault (.runawayExecution (t.cycle + 1)) })) ∧
    (∀ f, exec i s = .fault f → step s = .fault f)

/-- R172: a running block whose index is outside 0..N-1 records the illegal index, and no other step raises it. That it
changes the status and nothing else is R176, the spec's decision D19 (log entry 19). -/
def Obligations.IndexOutOfRangeIsRecorded : Prop :=
  (∀ s : State, s.status = .running → s.idx < 0 ∨ (s.imem.length : Int) ≤ s.idx →
    step s = .next { s with status := .fault (.controlFlowOutOfRange s.idx) }) ∧
  ∀ (s t : State) (k : Int), s.status = .running → step s = .next t →
    t.status = .fault (.controlFlowOutOfRange k) → k = s.idx ∧ (s.idx < 0 ∨ (s.imem.length : Int) ≤ s.idx)

/-- DecodeFailure: a running block that fetches a word of no class records the index and the word, applies nothing and
emits no record; no other step raises it. Raising it at execution is the spec's decision D5 (log entry 20). -/
def Obligations.UnknownWordIsRecordedAndNotApplied : Prop :=
  (∀ (s : State) (k : Nat) (w : InstrWord), s.status = .running → s.idx = (k : Int) → s.imem[k]? = some w →
    classify s.cfg.rom w = none → step s = .next { s with status := .fault (.decodeFailure s.idx w) }) ∧
  ∀ (s t : State) (k : Int) (w : InstrWord), s.status = .running → step s = .next t →
    t.status = .fault (.decodeFailure k w) → k = s.idx ∧ s.fetch = some w ∧ classify s.cfg.rom w = none

/-- R177: once the status is not RUNNING no further step exists; a total step function gives the state back unchanged
(`95_test_vectors.md` V-Y8), however often it is asked. -/
def Obligations.StoppedBlockStaysAsItIs : Prop :=
  ∀ (s : State) (k : Nat), s.status ≠ .running → Host.Core.run core k s = .next s

/-- R108, R170: a run leaves RUNNING in exactly one of four ways, and each error kind and HALTED is reached exactly under
its own condition (order of the tests: the spec's decision D18; log entries 5 and 19). -/
def Obligations.RunEndsOnlyInTheFourWays : Prop :=
  ∀ s t : State, s.status = .running → step s = .next t → t.status ≠ .running →
    (t.status = .halted ∧ ∃ w, Executes s w .brk) ∨
    (t.status = .fault (.controlFlowOutOfRange s.idx) ∧ s.fetch = none) ∨
    (∃ w, t.status = .fault (.decodeFailure s.idx w) ∧ s.fetch = some w ∧ decode s.cfg.rom w = .unknown w) ∨
    (∃ w i m, Executes s w i ∧ i ≠ .brk ∧ s.cfg.maxCycles = some m ∧ m < s.cycle + 1 ∧
      t.status = .fault (.runawayExecution (s.cycle + 1)))

/-- A fault is precise (the spec's decision D19, log entry 19): the two that apply nothing change the status alone, and in
RunawayExecution the instruction's effect, its record, its delta and the count stand. -/
def Obligations.FaultEntryIsPrecise : Prop :=
  ∀ (s t : State) (k : ErrorKind), s.status = .running → step s = .next t → t.status = .fault k →
    (k.code ≠ 3 → t = { s with status := .fault k }) ∧
    (k.code = 3 → ∃ w i u, Executes s w i ∧ exec i s = .next u ∧
      t = { u with status := .fault k, cycle := s.cycle + 1,
                   trace := s.trace ++ [⟨s.cycle, 96 + 4 * s.idx, w, i, u.regs, u.mem⟩] })

/-- R182: an executed cycle emits one record, with the cycle and position it was fetched at and the registers and entries
after its effect, and a step that executes nothing emits none. -/
def Obligations.EachExecutedCycleEmitsOneRecord : Prop :=
  ∀ s t : State, step s = .next t →
    (∀ w i, Executes s w i → t.trace = s.trace ++ [⟨s.cycle, 96 + 4 * s.idx, w, i, t.regs, t.mem⟩]) ∧
    ((∀ w i, ¬Executes s w i) → t.trace = s.trace)

/-- R181: the counter goes up by one for each executed instruction that is not BREAK, and for nothing else. -/
def Obligations.CycleCountsExecutedInstructions : Prop :=
  ∀ s t : State, step s = .next t →
    ((∃ w i, Executes s w i ∧ i ≠ .brk) → t.cycle = s.cycle + 1) ∧
    ((¬∃ w i, Executes s w i ∧ i ≠ .brk) → t.cycle = s.cycle)

/-- R29, R51: no step writes the parameters or the instruction store, so no program changes an instruction. -/
def Obligations.NoStepWritesProgramOrParameters : Prop :=
  ∀ (k : Nat) (s t : State), Host.Core.run core k s = .next t → t.cfg = s.cfg ∧ t.imem = s.imem

/-- The interface's placed word is what the next step fetches and runs, with no register, entry, counter or parameter
changed (log entry 11). -/
def Obligations.PlacedWordIsFetchedNext : Prop :=
  ∀ (s : State) (nbits w : Nat), nbits ≤ 32 →
    let t := s.withFetchWord nbits w
    t.status = .running ∧ t.fetch = some (BitVec.ofNat 32 (w % 2 ^ nbits)) ∧ t.regs = s.regs ∧ t.mem = s.mem ∧
    t.cycle = s.cycle ∧ t.cfg = s.cfg ∧ t.trace = s.trace ∧
    ∀ i, s.cfg.rom = Rom.default → decodeTableWord nbits w = some i → Executes t (tableWord nbits w) i

/-! ## The invariant and whole runs -/

/-- Every step keeps the invariant of the block. -/
def Obligations.StepKeepsTheInvariant : Prop :=
  ∀ s t : State, Inv s → step s = .next t → Inv t

/-- The invariant holds after reset. The registers' reset value 0 plays no part in it. -/
def Obligations.ResetMeetsTheInvariant : Prop := Inv State.reset

/-- The invariant holds of every program that fits the position space, as it is loaded. -/
def Obligations.LoadedProgramMeetsTheInvariant : Prop :=
  ∀ (cfg : Config) (ws : List InstrWord), 96 + 4 * (ws.length : Int) ≤ 2 ^ 63 → Inv (load cfg ws)

/-- R108: with the guard enabled every run ends, from any state, within `MAX_CYCLES + 1` steps. The guard's test is the
spec's decision D16 (log entry 5). -/
def Obligations.GuardedRunsEnd : Prop :=
  ∀ (s : State) (m : Nat), s.cfg.maxCycles = some m → s.cfg.sturWide = .truncate →
    ∃ t, Host.Core.run core (m + 1) s = .next t ∧ t.status ≠ .running

/-- R108: a run of a loaded program emits at most `MAX_CYCLES` records (one, if the bound is 0: log entry 5), and a
run that halted executed its BREAK at a cycle within the bound. -/
def Obligations.GuardedRunsEmitAtMostTheBound : Prop :=
  ∀ (cfg : Config) (ws : List InstrWord) (m k : Nat) (t : State), cfg.maxCycles = some m →
    Host.Core.run core k (load cfg ws) = .next t →
    t.trace.length ≤ max m 1 ∧ (t.status = .halted → t.cycle ≤ max m 1)

/-! ## The loader -/

/-- The split at the first BREAK: that BREAK is the last instruction, everything after it is data, one entry a word at
96 + 4k, whatever its bits and whatever its value (R101, R102, R104; decisions D29, D30, log entry 18). -/
def Obligations.LoaderSplitsAtTheFirstBreak : Prop :=
  ∀ (cfg : Config) (ws : List InstrWord) (b : Nat), ws[b]?.map (classify cfg.rom) = some (some .brk) →
    (∀ k, k < b → ws[k]?.map (classify cfg.rom) ≠ some (some .brk)) →
    (load cfg ws).imem = ws.take (b + 1) ∧
    (∀ k w, b < k → ws[k]? = some w → Memory.entry (load cfg ws).mem (96 + 4 * (k : Int)) = some w) ∧
    (∀ p d, Memory.entry (load cfg ws).mem p = some d → ∃ k : Nat, b < k ∧ p = 96 + 4 * (k : Int) ∧ ws[k]? = some d)

/-- R103: without a BREAK every word is an instruction and the store is empty; a run of it never halts. -/
def Obligations.LoaderWithoutBreakHasNoData : Prop :=
  ∀ (cfg : Config) (ws : List InstrWord), (∀ w ∈ ws, classify cfg.rom w ≠ some .brk) →
    (load cfg ws).imem = ws ∧ (load cfg ws).mem = [] ∧
    ∀ (k : Nat) (t : State), Host.Core.run core k (load cfg ws) = .next t → t.status ≠ .halted

/-- The only BREAK of a loaded program is its last instruction. -/
def Obligations.LoadedBreakIsTheLastInstruction : Prop :=
  ∀ (cfg : Config) (ws : List InstrWord) (k : Nat) (w : InstrWord), (load cfg ws).imem[k]? = some w →
    classify cfg.rom w = some .brk → k + 1 = (load cfg ws).imem.length

/-- The load interface takes exactly the lines of 32 characters `0` or `1`, first character `w[31]`, and gives the program
of their words; otherwise it refuses by the number of the first line that breaks the contract, counted from 0. Refusing is
the spec's decision D23 (log entry 18). -/
def Obligations.LoadInterfaceTakesExactlyTheContract : Prop :=
  ∀ (cfg : Config) (lines : List String), cfg.strictSentinels = false →
    ((∀ l ∈ lines, l.toList.length = 32 ∧ ∀ c ∈ l.toList, c = '0' ∨ c = '1') →
      ∃ ws : List InstrWord, loadLines cfg lines = .next (load cfg ws) ∧ ws.length = lines.length ∧
        ∀ (k : Nat) (l : String) (w : InstrWord), lines[k]? = some l → ws[k]? = some w →
          ∀ j, j < 32 → (w.getLsbD (31 - j) = true ↔ l.toList[j]? = some '1')) ∧
    (¬(∀ l ∈ lines, l.toList.length = 32 ∧ ∀ c ∈ l.toList, c = '0' ∨ c = '1') →
      ∃ (k : Nat) (bad : String), lines[k]? = some bad ∧
        ¬(bad.toList.length = 32 ∧ ∀ c ∈ bad.toList, c = '0' ∨ c = '1') ∧
        (∀ (j : Nat) (l : String), j < k → lines[j]? = some l →
          l.toList.length = 32 ∧ ∀ c ∈ l.toList, c = '0' ∨ c = '1') ∧
        loadLines cfg lines = .refused (.malformedLine k))

/-- With `STRICT_SENTINELS` set (`93_implementation_defined.md` U4, not the spec's default; log entry 10) the loader refuses
exactly the programs whose instruction segment holds a NOP or a BREAK that is not its canonical word. -/
def Obligations.StrictSentinelsRefuseNonCanonicalWords : Prop :=
  ∀ (cfg : Config) (lines : List String) (ws : List InstrWord), cfg.strictSentinels = true →
    parseLines 0 (lines.map String.toList) = .ok ws →
    let bad (k : Nat) (w : InstrWord) : Prop := (load cfg ws).imem[k]? = some w ∧
      ((classify cfg.rom w = some .nop ∧ w ≠ 0x00000000#32) ∨ (classify cfg.rom w = some .brk ∧ w ≠ 0xFEDEFFE7#32))
    ((∃ k w, bad k w) → ∃ k w, bad k w ∧ loadLines cfg lines = .refused (.nonCanonicalSentinel k)) ∧
    ((¬∃ k w, bad k w) → loadLines cfg lines = .next (load cfg ws))

/-- What reset and load leave (R35): index 0, counter 1, RUNNING, no record; the registers hold 0, which is the spec's
decision D15 from general knowledge (log entry 2). Reset has no instruction, no entry and the default parameters: the ROM of
R72 (D1, log entry 3), `MAX_CYCLES` 100, truncating stores (U2, log entry 9), sentinels by leading bits alone (U4, log entry
10). -/
def Obligations.LoadLeavesTheResetValues : Prop :=
  (∀ (cfg : Config) (ws : List InstrWord), (load cfg ws).idx = 0 ∧ (load cfg ws).cycle = 1 ∧
    (load cfg ws).status = .running ∧ (load cfg ws).trace = [] ∧ (load cfg ws).cfg = cfg ∧
    ∀ r, (load cfg ws).reg r = 0#64) ∧
  (∀ r, State.reset.reg r = 0#64) ∧ State.reset.idx = 0 ∧ State.reset.cycle = 1 ∧ State.reset.status = .running ∧
  State.reset.trace = [] ∧ State.reset.mem = [] ∧ State.reset.imem = [] ∧
  State.reset.cfg.rom = Rom.default ∧ State.reset.cfg.maxCycles = some 100 ∧ State.reset.cfg.sturWide = .truncate ∧
  State.reset.cfg.strictSentinels = false
end

