-- ==== Sys2Proof/Laws/State.lean ====
section
/-! SUPPORT. One lemma per field per update of `State`, so that no proof unfolds a record update. -/

namespace Sys2Proof.Machine

variable (s : State)

/-! ### `State.setReg` -/

@[simp] theorem State.setReg_cfg (r : Reg) (v : Word) : (s.setReg r v).cfg = s.cfg := rfl
@[simp] theorem State.setReg_imem (r : Reg) (v : Word) : (s.setReg r v).imem = s.imem := rfl
@[simp] theorem State.setReg_regs (r : Reg) (v : Word) : (s.setReg r v).regs = s.regs.set r v := rfl
@[simp] theorem State.setReg_idx (r : Reg) (v : Word) : (s.setReg r v).idx = s.idx := rfl
@[simp] theorem State.setReg_cycle (r : Reg) (v : Word) : (s.setReg r v).cycle = s.cycle := rfl
@[simp] theorem State.setReg_status (r : Reg) (v : Word) : (s.setReg r v).status = s.status := rfl
@[simp] theorem State.setReg_mem (r : Reg) (v : Word) : (s.setReg r v).mem = s.mem := rfl
@[simp] theorem State.setReg_trace (r : Reg) (v : Word) : (s.setReg r v).trace = s.trace := rfl

/-! ### `State.memWrite` -/

@[simp] theorem State.memWrite_cfg (p : Int) (v : Data) : (s.memWrite p v).cfg = s.cfg := rfl
@[simp] theorem State.memWrite_imem (p : Int) (v : Data) : (s.memWrite p v).imem = s.imem := rfl
@[simp] theorem State.memWrite_regs (p : Int) (v : Data) : (s.memWrite p v).regs = s.regs := rfl
@[simp] theorem State.memWrite_idx (p : Int) (v : Data) : (s.memWrite p v).idx = s.idx := rfl
@[simp] theorem State.memWrite_cycle (p : Int) (v : Data) : (s.memWrite p v).cycle = s.cycle := rfl
@[simp] theorem State.memWrite_status (p : Int) (v : Data) : (s.memWrite p v).status = s.status := rfl
@[simp] theorem State.memWrite_mem (p : Int) (v : Data) : (s.memWrite p v).mem = Memory.write s.mem p v := rfl
@[simp] theorem State.memWrite_trace (p : Int) (v : Data) : (s.memWrite p v).trace = s.trace := rfl

/-! ### `State.advance` -/

@[simp] theorem State.advance_cfg (d : Int) : (s.advance d).cfg = s.cfg := rfl
@[simp] theorem State.advance_imem (d : Int) : (s.advance d).imem = s.imem := rfl
@[simp] theorem State.advance_regs (d : Int) : (s.advance d).regs = s.regs := rfl
@[simp] theorem State.advance_idx (d : Int) : (s.advance d).idx = s.idx + d := rfl
@[simp] theorem State.advance_cycle (d : Int) : (s.advance d).cycle = s.cycle := rfl
@[simp] theorem State.advance_status (d : Int) : (s.advance d).status = s.status := rfl
@[simp] theorem State.advance_mem (d : Int) : (s.advance d).mem = s.mem := rfl
@[simp] theorem State.advance_trace (d : Int) : (s.advance d).trace = s.trace := rfl

/-! ### `State.raise` -/

@[simp] theorem State.raise_cfg (k : ErrorKind) : (s.raise k).cfg = s.cfg := rfl
@[simp] theorem State.raise_imem (k : ErrorKind) : (s.raise k).imem = s.imem := rfl
@[simp] theorem State.raise_regs (k : ErrorKind) : (s.raise k).regs = s.regs := rfl
@[simp] theorem State.raise_idx (k : ErrorKind) : (s.raise k).idx = s.idx := rfl
@[simp] theorem State.raise_cycle (k : ErrorKind) : (s.raise k).cycle = s.cycle := rfl
@[simp] theorem State.raise_status (k : ErrorKind) : (s.raise k).status = .fault k := rfl
@[simp] theorem State.raise_mem (k : ErrorKind) : (s.raise k).mem = s.mem := rfl
@[simp] theorem State.raise_trace (k : ErrorKind) : (s.raise k).trace = s.trace := rfl

/-! ### `State.halt` -/

@[simp] theorem State.halt_cfg : (s.halt).cfg = s.cfg := rfl
@[simp] theorem State.halt_imem : (s.halt).imem = s.imem := rfl
@[simp] theorem State.halt_regs : (s.halt).regs = s.regs := rfl
@[simp] theorem State.halt_idx : (s.halt).idx = s.idx := rfl
@[simp] theorem State.halt_cycle : (s.halt).cycle = s.cycle := rfl
@[simp] theorem State.halt_status : (s.halt).status = .halted := rfl
@[simp] theorem State.halt_mem : (s.halt).mem = s.mem := rfl
@[simp] theorem State.halt_trace : (s.halt).trace = s.trace := rfl

/-! ### `State.emit` -/

@[simp] theorem State.emit_cfg (r : TraceRecord) : (s.emit r).cfg = s.cfg := rfl
@[simp] theorem State.emit_imem (r : TraceRecord) : (s.emit r).imem = s.imem := rfl
@[simp] theorem State.emit_regs (r : TraceRecord) : (s.emit r).regs = s.regs := rfl
@[simp] theorem State.emit_idx (r : TraceRecord) : (s.emit r).idx = s.idx := rfl
@[simp] theorem State.emit_cycle (r : TraceRecord) : (s.emit r).cycle = s.cycle := rfl
@[simp] theorem State.emit_status (r : TraceRecord) : (s.emit r).status = s.status := rfl
@[simp] theorem State.emit_mem (r : TraceRecord) : (s.emit r).mem = s.mem := rfl
@[simp] theorem State.emit_trace (r : TraceRecord) : (s.emit r).trace = s.trace ++ [r] := rfl

/-! ### Registers -/

/-- A written register holds the value, whichever it is (R21). -/
@[simp] theorem State.reg_setReg_same (r : Reg) (v : Word) : (s.setReg r v).reg r = v := by
  simp [State.reg, State.setReg]

/-- A write leaves every other register alone (R106). -/
theorem State.reg_setReg_other (r q : Reg) (v : Word) (h : q ≠ r) : (s.setReg r v).reg q = s.reg q := by
  have hne : (r : Nat) ≠ (q : Nat) := fun e => h (Fin.ext e.symm)
  simp [State.reg, State.setReg, hne]

theorem State.reg_setReg (r q : Reg) (v : Word) : (s.setReg r v).reg q = if q = r then v else s.reg q := by
  by_cases h : q = r
  · subst h; simp
  · simp [h, State.reg_setReg_other s r q v h]

@[simp] theorem State.reg_memWrite (q : Reg) (p : Int) (v : Data) : (s.memWrite p v).reg q = s.reg q := rfl
@[simp] theorem State.reg_advance (q : Reg) (d : Int) : (s.advance d).reg q = s.reg q := rfl
@[simp] theorem State.reg_raise (q : Reg) (k : ErrorKind) : (s.raise k).reg q = s.reg q := rfl
@[simp] theorem State.reg_halt (q : Reg) : (s.halt).reg q = s.reg q := rfl
@[simp] theorem State.reg_emit (q : Reg) (r : TraceRecord) : (s.emit r).reg q = s.reg q := rfl

/-- Every register holds its reset value after reset (R35). -/
@[simp] theorem State.reg_reset (q : Reg) : State.reset.reg q = resetRegister := by
  simp [State.reg, State.reset]

/-- A read goes to the store (R41). -/
theorem State.memRead_eq (p : Int) : s.memRead p = Memory.read s.mem p := rfl

end Sys2Proof.Machine
end

