-- ==== Sys2Proof/Laws/Memory.lean ====
section
/-! SUPPORT. What the store's operations do, and that each keeps its canonical form (R40, R41, R42, R54). -/

namespace Sys2Proof.Machine

/-- A write changes the entry at its position and no other (R42). -/
theorem Memory.entry_write (m : Memory) (p q : Int) (v : Data) :
    Memory.entry (Memory.write m p v) q = if p = q then some v else Memory.entry m q := by
  induction m with
  | nil => simp [Memory.write, Memory.entry]
  | cons c rest ih =>
    obtain ⟨k, u⟩ := c
    simp only [Memory.write]
    split
    · simp only [Memory.entry]
    · split
      · rename_i _ h
        subst h
        by_cases hq : p = q <;> simp [Memory.entry, hq]
      · rename_i _ hne
        simp only [Memory.entry, ih]
        by_cases hk : k = q
        · subst hk; simp [hne]
        · simp [hk]

/-- Where the entries of a written store lie. -/
theorem Memory.mem_write {m : Memory} {p : Int} {v : Data} {c : Int × Data} (h : c ∈ Memory.write m p v) :
    c = (p, v) ∨ c ∈ m := by
  induction m with
  | nil => left; simpa [Memory.write] using h
  | cons d rest ih =>
    obtain ⟨k, u⟩ := d
    simp only [Memory.write] at h
    split at h
    · simpa using h
    · split at h
      · rcases List.mem_cons.1 h with h | h
        · exact .inl h
        · exact .inr (List.mem_cons_of_mem _ h)
      · rcases List.mem_cons.1 h with h | h
        · exact .inr (h ▸ List.mem_cons_self ..)
        · exact (ih h).imp_right (List.mem_cons_of_mem _)

/-- The empty store is in canonical form. -/
theorem Memory.wf_nil : Memory.wf [] := ⟨.nil, by simp⟩

/-- The tail of a canonical store is canonical. -/
theorem Memory.wf_tail {c : Int × Data} {m : Memory} (h : Memory.wf (c :: m)) : Memory.wf m :=
  ⟨(List.pairwise_cons.1 h.1).2, fun d hd => h.2 d (List.mem_cons_of_mem _ hd)⟩

/-- A store at an `s64` position keeps the canonical form (R40, R54). -/
theorem Memory.wf_write {m : Memory} {p : Int} {v : Data} (h : Memory.wf m) (hp : PositionOk p) :
    Memory.wf (Memory.write m p v) := by
  refine ⟨?_, fun c hc => (Memory.mem_write hc).elim (fun e => e ▸ hp) (h.2 c)⟩
  replace h := h.1
  induction m with
  | nil => simp [Memory.write]
  | cons c rest ih =>
    obtain ⟨k, u⟩ := c
    obtain ⟨hk, hrest⟩ := List.pairwise_cons.1 h
    simp only [Memory.write]
    split
    · rename_i hlt
      refine List.pairwise_cons.2 ⟨fun d hd => ?_, h⟩
      rcases List.mem_cons.1 hd with e | hd
      · exact e ▸ hlt
      · exact Int.lt_trans hlt (hk d hd)
    · split
      · rename_i _ he
        exact List.pairwise_cons.2 ⟨fun d hd => he ▸ hk d hd, hrest⟩
      · rename_i h1 h2
        refine List.pairwise_cons.2 ⟨fun d hd => ?_, ih hrest⟩
        rcases Memory.mem_write hd with e | hd
        · subst e; simp only; omega
        · exact hk d hd

/-- A position below every listed one has no entry. -/
theorem Memory.entry_eq_none {m : Memory} {p : Int} (h : ∀ c ∈ m, c.1 ≠ p) : Memory.entry m p = none := by
  induction m with
  | nil => rfl
  | cons c rest ih =>
    obtain ⟨k, u⟩ := c
    have hk : k ≠ p := h (k, u) (List.mem_cons_self ..)
    simp only [Memory.entry, hk, if_false]
    exact ih fun d hd => h d (List.mem_cons_of_mem _ hd)

/-- Where positions strictly rise, the entry at a position is the listed pair (R40). -/
theorem Memory.entry_eq_some_iff_of_rising {m : Memory} (h : m.Pairwise (fun a b => a.1 < b.1)) (p : Int) (v : Data) :
    Memory.entry m p = some v ↔ (p, v) ∈ m := by
  induction m with
  | nil => simp [Memory.entry]
  | cons c rest ih =>
    obtain ⟨k, u⟩ := c
    obtain ⟨hlt, hrest⟩ := List.pairwise_cons.1 h
    by_cases hk : k = p
    · subst hk
      simp only [Memory.entry, if_true, Option.some.injEq, List.mem_cons, Prod.mk.injEq, true_and]
      constructor
      · exact fun e => .inl e.symm
      · rintro (e | hm)
        · exact e.symm
        · exact absurd (hlt _ hm) (by simp)
    · have hne : ¬(p = k) := fun e => hk e.symm
      simp [Memory.entry, hk, hne, ih hrest]

/-- In a canonical store the entry at a position is the listed pair (R40). -/
theorem Memory.entry_eq_some_iff {m : Memory} (h : Memory.wf m) (p : Int) (v : Data) :
    Memory.entry m p = some v ↔ (p, v) ∈ m := Memory.entry_eq_some_iff_of_rising h.1 p v

end Sys2Proof.Machine
end

