-- ==== Sys2Proof/Laws/Operands.lean ====
section
/-! SUPPORT. The operand forms as plain bit-vector operations and as integers (R8, R47, R142, R145, R146). -/

namespace Sys2Proof.Machine

/-- `s64` of an integer, read back (R8). -/
theorem toInt_s64 (v : Int) : (s64 v).toInt = v.bmod (2 ^ 64) := BitVec.toInt_ofInt ..

/-- `s64` of a register value is the value. -/
@[simp] theorem s64_toInt (x : Word) : s64 x.toInt = x := BitVec.ofInt_toInt

/-- `s64` is congruent modulo 2^64 (R8). -/
theorem isS64_s64 (v : Int) : IsS64 (s64 v) v := by
  refine ⟨-((v + 2 ^ 63) / 2 ^ 64), ?_⟩
  rw [toInt_s64, Int.bmod_def]
  split <;> omega

/-- The congruence determines the register value (R8: "the unique integer"). -/
theorem IsS64.unique {x y : Word} {v : Int} (hx : IsS64 x v) (hy : IsS64 y v) : x = y := by
  obtain ⟨j, hj⟩ := hx
  obtain ⟨k, hk⟩ := hy
  have h1 := BitVec.le_toInt x; have h2 := BitVec.toInt_lt (x := x)
  have h3 := BitVec.le_toInt y; have h4 := BitVec.toInt_lt (x := y)
  apply BitVec.eq_of_toInt_eq
  omega

/-- The effective position is an `s64` integer (R40, R47). -/
theorem effectivePosition_ok (base : Word) (addr : Nat) : PositionOk (effectivePosition base addr) := by
  have h1 := BitVec.le_toInt (s64 (base.toInt + 4 * (addr : Int)))
  have h2 := BitVec.toInt_lt (x := s64 (base.toInt + 4 * (addr : Int)))
  simp only [effectivePosition, PositionOk]
  omega

/-- A loaded word has the entry's value (R145). -/
theorem toInt_loadWord (d : Data) : (loadWord d).toInt = d.toInt := by
  have h1 := BitVec.le_toInt d; have h2 := BitVec.toInt_lt (x := d)
  rw [loadWord, toInt_s64, Int.bmod_def]
  split <;> omega

/-- A stored word is congruent modulo 2^32 (R146). -/
theorem isS32_storeWord (x : Word) : IsS32 (storeWord x) x.toInt := by
  refine ⟨-((x.toInt + 2 ^ 31) / 2 ^ 32), ?_⟩
  rw [storeWord, s32, BitVec.toInt_ofInt, Int.bmod_def]
  split <;> omega

/-- A value that fits is stored as it is (R146). -/
theorem toInt_storeWord {x : Word} (h : FitsWord x) : (storeWord x).toInt = x.toInt := by
  obtain ⟨h1, h2⟩ := h
  rw [storeWord, s32, BitVec.toInt_ofInt, Int.bmod_def]
  split <;> omega

/-- The test of a whole register (R151). -/
theorem isZero_iff (x : Word) : isZero x = true ↔ x.toInt = 0 := by
  simp only [isZero, beq_iff_eq]
  exact ⟨fun h => by simp [h], fun h => BitVec.eq_of_toInt_eq (by simpa using h)⟩

/-- The field of a wide move as a natural number: nothing is lost at any of the four amounts (R140). -/
theorem toNat_wideField {shcode field : Nat} (h : WideOk shcode field) :
    (wideField shcode field).toNat = field * 2 ^ (16 * shcode) := by
  obtain ⟨hs, hf⟩ := h
  have e : wideField shcode field = BitVec.ofNat 64 (field * 2 ^ (16 * shcode)) := by
    simp only [wideField, s64, wideShift]
    rw [← BitVec.ofInt_natCast]
    norm_cast
  rw [e, BitVec.toNat_ofNat]
  apply Nat.mod_eq_of_lt
  have hp : 2 ^ (16 * shcode) ≤ 2 ^ 48 := Nat.pow_le_pow_right (by omega) (by omega)
  calc field * 2 ^ (16 * shcode) ≤ 65535 * 2 ^ 48 := Nat.mul_le_mul (by omega) hp
    _ < 2 ^ 64 := by norm_num

/-- The mask of a wide move is the slice with every bit 1 (R141). -/
theorem wideMask_eq (shcode : Nat) : wideMask shcode = wideField shcode 0xFFFF := by
  simp [wideMask, wideField]

/-- The bits of the field of a wide move (R140). -/
theorem getLsbD_wideField {shcode field : Nat} (h : WideOk shcode field) (j : Nat) :
    (wideField shcode field).getLsbD j =
      if 16 * shcode ≤ j ∧ j < 16 * shcode + 16 then field.testBit (j - 16 * shcode) else false := by
  rw [BitVec.getLsbD, toNat_wideField h, Nat.testBit_mul_two_pow]
  by_cases h1 : 16 * shcode ≤ j
  · by_cases h2 : j < 16 * shcode + 16
    · simp [h1, h2]
    · have : field.testBit (j - 16 * shcode) = false :=
        Nat.testBit_lt_two_pow (Nat.lt_of_lt_of_le (m := 2 ^ 16) h.2 (Nat.pow_le_pow_right (by omega) (by omega)))
      simp [h1, h2, this]
  · simp [h1]

/-- The bits of the mask of a wide move (R141). -/
theorem getLsbD_wideMask {shcode : Nat} (h : shcode < 4) (j : Nat) :
    (wideMask shcode).getLsbD j = decide (16 * shcode ≤ j ∧ j < 16 * shcode + 16) := by
  rw [wideMask_eq, getLsbD_wideField ⟨h, by decide⟩]
  split
  · rename_i hj
    have : (65535 : Nat).testBit (j - 16 * shcode) = true := by
      rw [show (65535 : Nat) = 2 ^ 16 - 1 by norm_num, Nat.testBit_two_pow_sub_one]
      simp; omega
    simp [this, hj]
  · rename_i hj; simp [hj]

end Sys2Proof.Machine
end

