-- ==== Sys2Proof/Laws/Exec.lean ====
section
/-! SUPPORT. Everything an instruction's meaning can answer (R22, R26, R106, R150). -/

namespace Sys2Proof.Machine

/-- An instruction that completes writes its destination register, or stores to its position, or moves the index by its
control delta alone, or is BREAK; the index moves by the control delta in all but the last. -/
theorem exec_next {i : Instr} {s t : State} (h : exec i s = .next t) :
    (∃ rd v, writesReg i = some rd ∧ storesAt s i = none ∧ controlDelta s i = 1 ∧ t = (s.setReg rd v).advance 1) ∨
    (∃ rd rn addr, i = .stur rd rn addr ∧
      t = (s.memWrite (effectivePosition (s.reg rn) addr) (storeWord (s.reg rd))).advance 1) ∨
    (writesReg i = none ∧ storesAt s i = none ∧ i ≠ .brk ∧ t = s.advance (controlDelta s i)) ∨
    (i = .brk ∧ t = s.halt) := by
  have writer : ∀ {rd v}, writeAndStep rd v s = .next t → t = (s.setReg rd v).advance 1 := by
    intro rd v h; injection h with h; exact h.symm
  cases i with
  | stur rd rn addr =>
    simp only [exec, execStur, storeAndStep] at h
    split at h
    · cases h
    · injection h with h; exact .inr (.inl ⟨rd, rn, addr, rfl, h.symm⟩)
  | cbz rd off =>
    injection h with h
    refine .inr (.inr (.inl ⟨rfl, rfl, by simp, h.symm.trans ?_⟩))
    simp only [controlDelta, takenDelta, isZero_iff]
  | cbnz rd off =>
    injection h with h
    refine .inr (.inr (.inl ⟨rfl, rfl, by simp, h.symm.trans ?_⟩))
    have hz := isZero_iff (s.reg rd)
    by_cases h0 : (s.reg rd).toInt = 0
    · simp [controlDelta, takenDelta, h0, hz.2 h0]
    · simp [controlDelta, takenDelta, h0, Bool.eq_false_iff.2 (fun e => h0 (hz.1 e))]
  | b off => injection h with h; exact .inr (.inr (.inl ⟨rfl, rfl, by simp, h.symm⟩))
  | nop => injection h with h; exact .inr (.inr (.inl ⟨rfl, rfl, by simp, h.symm⟩))
  | brk => injection h with h; exact .inr (.inr (.inr ⟨rfl, h.symm⟩))
  | add rd | sub rd | and rd | orr rd | eor rd | lsl rd | asr rd | lsr rd | ldur rd | addi rd | subi rd | movz rd
  | movk rd => exact .inl ⟨rd, _, rfl, rfl, rfl, writer h⟩

/-- Only STUR with the parameter `STUR_WIDE` set to fault stops, and only on a value that does not fit (U2). -/
theorem exec_fault {i : Instr} {s : State} {f : Fault} (h : exec i s = .fault f) :
    ∃ rd rn addr, i = .stur rd rn addr ∧ s.cfg.sturWide = .fault ∧ ¬FitsWord (s.reg rd) ∧
      f = .storeTooWide (effectivePosition (s.reg rn) addr) (s.reg rd) := by
  cases i with
  | stur rd rn addr =>
    simp only [exec, execStur, storeAndStep] at h
    split at h
    · rename_i hc
      injection h with h
      exact ⟨rd, rn, addr, rfl, hc.1, hc.2, h.symm⟩
    · cases h
  | _ => cases h

/-- What no instruction's effect touches: the parameters, the program, the counter, the trace; and the status of a state
changes by BREAK alone (R29, R51). -/
theorem exec_control {i : Instr} {s t : State} (h : exec i s = .next t) :
    t.cfg = s.cfg ∧ t.imem = s.imem ∧ t.cycle = s.cycle ∧ t.trace = s.trace ∧
    t.status = (if i = .brk then .halted else s.status) := by
  rcases exec_next h with ⟨rd, v, hw, -, -, rfl⟩ | ⟨rd, rn, addr, rfl, rfl⟩ | ⟨-, -, hb, rfl⟩ | ⟨rfl, rfl⟩
  · have : i ≠ .brk := by rintro rfl; cases hw
    simp [this]
  · simp
  · simp [hb]
  · simp

end Sys2Proof.Machine
end

