-- ==== Sys2Proof/Laws/Step.lean ====
section
/-! SUPPORT. Everything a step can answer (R107), and the fetch. -/

namespace Sys2Proof.Machine

/-- The fetch answers a word exactly when the index names a slot (R107 steps 1 and 2). -/
theorem fetch_eq_some_iff (s : State) (w : InstrWord) :
    s.fetch = some w ↔ ∃ k : Nat, s.idx = (k : Int) ∧ s.imem[k]? = some w := by
  unfold State.fetch
  constructor
  · intro h
    split at h
    · cases h
    · exact ⟨s.idx.toNat, by omega, h⟩
  · rintro ⟨k, hk, hw⟩
    simp [hk, hw]

/-- The fetch answers nothing exactly when the index is outside 0..N-1 (R172). -/
theorem fetch_eq_none_iff (s : State) : s.fetch = none ↔ s.idx < 0 ∨ (s.imem.length : Int) ≤ s.idx := by
  unfold State.fetch
  split
  · simp_all
  · rw [List.getElem?_eq_none_iff]; omega

/-- A decoded word is an instruction or UNKNOWN by its class (R74, R90). -/
theorem decode_eq_unknown_iff (rom : Rom) (w v : InstrWord) : decode rom w = .unknown v ↔ classify rom w = none ∧ w = v := by
  unfold decode
  cases classify rom w <;> simp

theorem decode_eq_instr_iff (rom : Rom) (w : InstrWord) (i : Instr) :
    decode rom w = .instr i ↔ ∃ o, classify rom w = some o ∧ unpack o w = i := by
  unfold decode
  cases classify rom w <;> simp

/-- The mnemonic of an unpacked word. -/
@[simp] theorem op_unpack (o : Op) (w : InstrWord) : (unpack o w).op = o := by cases o <;> rfl

/-- The guard (R107 step 9). -/
theorem guardFires_iff (s : State) : guardFires s = true ↔ ∃ m, s.cfg.maxCycles = some m ∧ m < s.cycle := by
  unfold guardFires
  cases s.cfg.maxCycles <;> simp

/-- Counting a cycle: the counter goes up by one, and the status becomes RunawayExecution exactly when the guard fires. -/
theorem countCycle_cases (s : State) :
    ((∀ m, s.cfg.maxCycles = some m → s.cycle + 1 ≤ m) ∧ countCycle s = { s with cycle := s.cycle + 1 }) ∨
    (∃ m, s.cfg.maxCycles = some m ∧ m < s.cycle + 1 ∧
      countCycle s = { s with cycle := s.cycle + 1, status := .fault (.runawayExecution (s.cycle + 1)) }) := by
  by_cases hg : guardFires { s with cycle := s.cycle + 1 } = true
  · obtain ⟨m, hm, hlt⟩ := (guardFires_iff _).1 hg
    exact .inr ⟨m, hm, hlt, by simp [countCycle, hg, State.raise]⟩
  · refine .inl ⟨fun m hm => ?_, by simp [countCycle, hg]⟩
    by_contra hlt
    exact hg ((guardFires_iff _).2 ⟨m, hm, by simpa using hlt⟩)

/-- A step of a stopped block (R177). -/
theorem step_stopped {s : State} (h : s.status ≠ .running) : step s = .next s := by
  simp [step, sequencerStep, h]

/-- A running block whose index names no slot (R172). -/
theorem step_outOfRange {s : State} (h : s.status = .running) (hf : s.fetch = none) :
    step s = .next (s.raise (.controlFlowOutOfRange s.idx)) := by
  simp [step, sequencerStep, h, cycleStep, hf]

/-- A running block at an UNKNOWN word (R171). -/
theorem step_unknown {s : State} {w : InstrWord} (h : s.status = .running) (hf : s.fetch = some w)
    (hd : decode s.cfg.rom w = .unknown w) : step s = .next (s.raise (.decodeFailure s.idx w)) := by
  simp [step, sequencerStep, h, cycleStep, hf, hd, runDecoded]

/-- A running block at an instruction (R107 steps 4 to 9). -/
theorem step_executes {s : State} {w : InstrWord} {i : Instr} (h : Executes s w i) : step s = executeCycle s w i := by
  obtain ⟨h, hf, hd⟩ := h
  simp [step, sequencerStep, h, cycleStep, hf, hd, runDecoded]

/-- The end of an executed cycle, whichever instruction it was (R107 steps 5 to 9). -/
theorem executeCycle_next {s t : State} {w : InstrWord} {i : Instr} (h : Executes s w i) (ht : executeCycle s w i = .next t) :
    ∃ u, exec i s = .next u ∧
      ((i = .brk ∧ u = s.halt ∧ t = u.emit (traceRecord s u w i)) ∨
       (i ≠ .brk ∧ u.status = .running ∧ (∀ m, s.cfg.maxCycles = some m → s.cycle + 1 ≤ m) ∧
         t = { u.emit (traceRecord s u w i) with cycle := s.cycle + 1 }) ∨
       (i ≠ .brk ∧ u.status = .running ∧ ∃ m, s.cfg.maxCycles = some m ∧ m < s.cycle + 1 ∧
         t = { u.emit (traceRecord s u w i) with
                cycle := s.cycle + 1, status := .fault (.runawayExecution (s.cycle + 1)) })) := by
  unfold executeCycle at ht
  split at ht
  · rename_i u hu
    injection ht with ht
    refine ⟨u, hu, ?_⟩
    obtain ⟨hcfg, -, hcyc, -, hst⟩ := exec_control hu
    by_cases hb : i = .brk
    · subst hb
      refine .inl ⟨rfl, ?_, ?_⟩
      · injection hu with hu; exact hu.symm
      · subst ht
        simp only [if_true] at hst
        simp [retire, hst]
    · simp only [hb, if_false, h.1] at hst
      subst ht
      have hr : retire s u w i = countCycle (u.emit (traceRecord s u w i)) := by simp [retire, hst]
      rw [hr]
      rcases countCycle_cases (u.emit (traceRecord s u w i)) with ⟨hm, e⟩ | ⟨m, hm, hlt, e⟩
      · refine .inr (.inl ⟨hb, hst, fun m h' => ?_, by rw [e]; simp [hcyc]⟩)
        simpa [hcyc] using hm m (by simpa [hcfg] using h')
      · exact .inr (.inr ⟨hb, hst, m, by simpa [hcfg] using hm, by simpa [hcyc] using hlt, by rw [e]; simp [hcyc]⟩)
  · cases ht
  · cases ht

/-- Every step that answers a next state is one of four: of a stopped block, out of range, at an UNKNOWN word, or an
executed instruction. -/
theorem step_cases {s t : State} (h : step s = .next t) :
    (s.status ≠ .running ∧ t = s) ∨
    (s.status = .running ∧ s.fetch = none ∧ t = s.raise (.controlFlowOutOfRange s.idx)) ∨
    (∃ w, s.status = .running ∧ s.fetch = some w ∧ decode s.cfg.rom w = .unknown w ∧
      t = s.raise (.decodeFailure s.idx w)) ∨
    (∃ w i, Executes s w i ∧ executeCycle s w i = .next t) := by
  by_cases hs : s.status = .running
  · cases hf : s.fetch with
    | none =>
      rw [step_outOfRange hs hf] at h
      injection h with h
      exact .inr (.inl ⟨hs, rfl, h.symm⟩)
    | some w =>
      cases hd : decode s.cfg.rom w with
      | unknown v =>
        obtain ⟨-, rfl⟩ := (decode_eq_unknown_iff _ _ _).1 hd
        rw [step_unknown hs hf hd] at h
        injection h with h
        exact .inr (.inr (.inl ⟨w, hs, rfl, hd, h.symm⟩))
      | instr i =>
        have he : Executes s w i := ⟨hs, hf, hd⟩
        exact .inr (.inr (.inr ⟨w, i, he, (step_executes he).symm.trans h⟩))
  · rw [step_stopped hs] at h
    injection h with h
    exact .inl ⟨hs, h.symm⟩

/-- One more step of a run of any machine. -/
theorem run_succ_of (M : Host.Core) (k : Nat) (s t : M.State) :
    M.run (k + 1) s = .next t ↔ ∃ u, M.step s = .next u ∧ M.run k u = .next t := by
  rw [Host.Core.run]
  cases M.step s <;> simp

/-- One more step of a run of the block. -/
theorem run_succ (k : Nat) (s t : State) :
    Host.Core.run core (k + 1) s = .next t ↔ ∃ u, step s = .next u ∧ Host.Core.run core k u = .next t :=
  run_succ_of core k s t

/-- What every step keeps, every run keeps. -/
theorem run_keeps {P : State → Prop} (hP : ∀ s t, P s → step s = .next t → P t) {k : Nat} {s t : State} (hs : P s)
    (h : Host.Core.run core k s = .next t) : P t := by
  induction k generalizing s with
  | zero => cases h; exact hs
  | succ k ih =>
    obtain ⟨u, hu, h⟩ := (run_succ _ _ _).1 h
    exact ih (hP s u hs hu) h

/-- No step writes the parameters or the program (R29, R51). -/
theorem step_config {s t : State} (h : step s = .next t) : t.cfg = s.cfg ∧ t.imem = s.imem := by
  rcases step_cases h with ⟨-, rfl⟩ | ⟨-, -, rfl⟩ | ⟨w, -, -, -, rfl⟩ | ⟨w, i, he, ht⟩
  · simp
  · simp
  · simp
  · obtain ⟨u, hu, ⟨rfl, rfl, rfl⟩ | ⟨-, -, -, rfl⟩ | ⟨-, -, m, -, -, rfl⟩⟩ := executeCycle_next he ht <;>
      simp [(exec_control hu).1, (exec_control hu).2.1]

end Sys2Proof.Machine
end

