-- ==== Sys2Proof/Laws/Decode.lean ====
section
/-! SUPPORT. Slices and packed words as numbers, the sign extension unit, and the fields of the encoder's words (R7, R63 to
R70). -/

namespace Sys2Proof

/-- A slice as a number (R7). -/
theorem toNat_slice (w : InstrWord) (hi lo : Nat) : (slice w hi lo).toNat = w.toNat / 2 ^ lo % 2 ^ (hi - lo + 1) := by
  simp [slice, Nat.shiftRight_eq_div_pow]

/-- The leading bits as a number (R61). -/
theorem leading_eq (n : Nat) (w : InstrWord) : leading n w = w.toNat / 2 ^ (32 - n) := by
  simp [leading, Nat.shiftRight_eq_div_pow]

/-- Joining two patterns, the first the high part (R8). -/
theorem toNat_append_eq {m n : Nat} (x : BitVec m) (y : BitVec n) : (x ++ y).toNat = x.toNat * 2 ^ n + y.toNat := by
  rw [BitVec.toNat_append, ← Nat.shiftLeft_add_eq_or_of_lt y.isLt, Nat.shiftLeft_eq]

/-- The sign extension unit is two's complement (R66). -/
theorem sext_eq_toInt {n : Nat} (v : BitVec n) : sext v = v.toInt := by
  unfold sext
  split
  · rename_i h
    have hn : 0 < n := by
      rcases Nat.eq_zero_or_pos n with rfl | h0
      · simp [BitVec.msb, BitVec.getMsbD] at h
      · exact h0
    have hneg : ~~~v + 1#n = -v := BitVec.neg_eq_not_add v |>.symm
    have hbig : 2 ^ n ≤ 2 * v.toNat := (BitVec.msb_eq_true_iff_two_mul_ge).1 h
    have hp : (0 : Nat) < 2 ^ n := Nat.two_pow_pos n
    rw [hneg, BitVec.toNat_neg, BitVec.toInt_eq_toNat_cond, if_neg (by omega), Nat.mod_eq_of_lt (by omega)]
    push_cast [Nat.cast_sub (Nat.le_of_lt v.isLt)]
    omega
  · rename_i h
    have h0 : v.msb = false := by simpa using h
    rw [BitVec.toInt_eq_toNat_of_msb h0]

/-- Reading back a register index (R20). -/
@[simp] theorem regOf_regBits (r : Reg) : regOf (regBits r) = r := by
  apply Fin.ext
  simp [regOf, regBits]

/-- The pattern of a register index as a number. -/
@[simp] theorem toNat_regBits (r : Reg) : (regBits r).toNat = r.val := by
  simp [regBits]

theorem toNat_packR (opc : BitVec 11) (rm : Reg) (shamt : Nat) (rn rd : Reg) :
    (packR opc rm shamt rn rd).toNat =
      opc.toNat * 2 ^ 21 + rm.val * 2 ^ 16 + shamt % 2 ^ 6 * 2 ^ 10 + rn.val * 2 ^ 5 + rd.val := by
  simp only [packR, toNat_append_eq, toNat_regBits, BitVec.toNat_ofNat]; ring

theorem toNat_packD (opc : BitVec 11) (addr : Nat) (rn rd : Reg) :
    (packD opc addr rn rd).toNat = opc.toNat * 2 ^ 21 + addr % 2 ^ 9 * 2 ^ 12 + rn.val * 2 ^ 5 + rd.val := by
  simp only [packD, toNat_append_eq, toNat_regBits, BitVec.toNat_ofNat]; ring

theorem toNat_packI (opc : BitVec 10) (imm : Int) (rn rd : Reg) :
    (packI opc imm rn rd).toNat =
      opc.toNat * 2 ^ 22 + (BitVec.ofInt 12 imm).toNat * 2 ^ 10 + rn.val * 2 ^ 5 + rd.val := by
  simp only [packI, toNat_append_eq, toNat_regBits]; ring

theorem toNat_packIM (opc : BitVec 9) (shcode field : Nat) (rd : Reg) :
    (packIM opc shcode field rd).toNat =
      opc.toNat * 2 ^ 23 + shcode % 2 ^ 2 * 2 ^ 21 + field % 2 ^ 16 * 2 ^ 5 + rd.val := by
  simp only [packIM, toNat_append_eq, toNat_regBits, BitVec.toNat_ofNat]; ring

theorem toNat_packCB (opc : BitVec 8) (off : Int) (rd : Reg) :
    (packCB opc off rd).toNat = opc.toNat * 2 ^ 24 + (BitVec.ofInt 19 off).toNat * 2 ^ 5 + rd.val := by
  simp only [packCB, toNat_append_eq, toNat_regBits]; ring

theorem toNat_packB (off : Int) : (packB off).toNat = patternB.toNat * 2 ^ 26 + (BitVec.ofInt 26 off).toNat := by
  simp only [packB, toNat_append_eq]

/-- A signed field in range, packed and read back (R66). -/
theorem toInt_ofInt_of_range {n : Nat} (hn : 0 < n) {k : Int} (h1 : -2 ^ (n - 1) ≤ k) (h2 : k < 2 ^ (n - 1)) :
    (BitVec.ofInt n k).toInt = k := by
  obtain ⟨m, rfl⟩ : ∃ m, n = m + 1 := ⟨n - 1, by omega⟩
  simp only [Nat.add_sub_cancel] at h1 h2
  rw [BitVec.toInt_ofInt]
  apply Int.bmod_eq_of_le <;> · push_cast [pow_succ]; omega

end Sys2Proof
end

