-- ==== Sys2Proof/Laws/PerInstr.lean ====
section
/-! SUPPORT. A fact of every instruction as a term, one lemma per constructor: the encoder's word starts with the
mnemonic's pattern, whatever the ROM and the field values (R61, R63 to R70). -/

namespace Sys2Proof.Laws.EncodeOpcode

/-- The encoded word is selected by the instruction's own mnemonic, with any ROM. -/
def Statement (i : Instr) : Prop := ∀ rom : Rom, rom.selects (encode rom i) i.op = true

/-- An R word starts with its 11-bit opcode (R63). -/
theorem leading_packR (opc : BitVec 11) (rm : Reg) (shamt : Nat) (rn rd : Reg) :
    leading 11 (packR opc rm shamt rn rd) = opc.toNat := by
  have := rm.isLt; have := rn.isLt; have := rd.isLt
  rw [leading_eq, toNat_packR]; omega

/-- A D word starts with its 11-bit opcode (R64). -/
theorem leading_packD (opc : BitVec 11) (addr : Nat) (rn rd : Reg) : leading 11 (packD opc addr rn rd) = opc.toNat := by
  have := rn.isLt; have := rd.isLt
  rw [leading_eq, toNat_packD]; omega

/-- An I word starts with its 10-bit opcode (R65). -/
theorem leading_packI (opc : BitVec 10) (imm : Int) (rn rd : Reg) : leading 10 (packI opc imm rn rd) = opc.toNat := by
  have := rn.isLt; have := rd.isLt; have := (BitVec.ofInt 12 imm).isLt
  rw [leading_eq, toNat_packI]; omega

/-- An IM word starts with its 9-bit opcode (R67). -/
theorem leading_packIM (opc : BitVec 9) (shcode field : Nat) (rd : Reg) :
    leading 9 (packIM opc shcode field rd) = opc.toNat := by
  have := rd.isLt
  rw [leading_eq, toNat_packIM]; omega

/-- A CB word starts with its 8-bit opcode (R68). -/
theorem leading_packCB (opc : BitVec 8) (off : Int) (rd : Reg) : leading 8 (packCB opc off rd) = opc.toNat := by
  have := rd.isLt; have := (BitVec.ofInt 19 off).isLt
  rw [leading_eq, toNat_packCB]; omega

/-- A B word starts with its 6-bit opcode (R69). -/
theorem leading_packB (off : Int) : leading 6 (packB off) = patternB.toNat := by
  have := (BitVec.ofInt 26 off).isLt
  rw [leading_eq, toNat_packB]; omega

theorem add (rd rn rm : Reg) (shamt : Nat) : Statement (.add rd rn rm shamt) :=
  fun rom => beq_iff_eq.2 (leading_packR rom.add ..)
theorem sub (rd rn rm : Reg) (shamt : Nat) : Statement (.sub rd rn rm shamt) :=
  fun rom => beq_iff_eq.2 (leading_packR rom.sub ..)
theorem and (rd rn rm : Reg) (shamt : Nat) : Statement (.and rd rn rm shamt) :=
  fun rom => beq_iff_eq.2 (leading_packR rom.and ..)
theorem orr (rd rn rm : Reg) (shamt : Nat) : Statement (.orr rd rn rm shamt) :=
  fun rom => beq_iff_eq.2 (leading_packR rom.orr ..)
theorem eor (rd rn rm : Reg) (shamt : Nat) : Statement (.eor rd rn rm shamt) :=
  fun rom => beq_iff_eq.2 (leading_packR rom.eor ..)
theorem lsl (rd rn rm : Reg) (shamt : Nat) : Statement (.lsl rd rn rm shamt) :=
  fun rom => beq_iff_eq.2 (leading_packR rom.lsl ..)
theorem asr (rd rn rm : Reg) (shamt : Nat) : Statement (.asr rd rn rm shamt) :=
  fun rom => beq_iff_eq.2 (leading_packR rom.asr ..)
theorem lsr (rd rn rm : Reg) (shamt : Nat) : Statement (.lsr rd rn rm shamt) :=
  fun rom => beq_iff_eq.2 (leading_packR rom.lsr ..)
theorem ldur (rd rn : Reg) (addr : Nat) : Statement (.ldur rd rn addr) :=
  fun rom => beq_iff_eq.2 (leading_packD rom.ldur ..)
theorem stur (rd rn : Reg) (addr : Nat) : Statement (.stur rd rn addr) :=
  fun rom => beq_iff_eq.2 (leading_packD rom.stur ..)
theorem addi (rd rn : Reg) (imm : Int) : Statement (.addi rd rn imm) :=
  fun rom => beq_iff_eq.2 (leading_packI rom.addi ..)
theorem subi (rd rn : Reg) (imm : Int) : Statement (.subi rd rn imm) :=
  fun rom => beq_iff_eq.2 (leading_packI rom.subi ..)
theorem movz (rd : Reg) (shcode field : Nat) : Statement (.movz rd shcode field) :=
  fun rom => beq_iff_eq.2 (leading_packIM rom.movz ..)
theorem movk (rd : Reg) (shcode field : Nat) : Statement (.movk rd shcode field) :=
  fun rom => beq_iff_eq.2 (leading_packIM rom.movk ..)
theorem cbz (rd : Reg) (off : Int) : Statement (.cbz rd off) := fun rom => beq_iff_eq.2 (leading_packCB rom.cbz ..)
theorem cbnz (rd : Reg) (off : Int) : Statement (.cbnz rd off) := fun rom => beq_iff_eq.2 (leading_packCB rom.cbnz ..)
theorem b (off : Int) : Statement (.b off) := fun _ => beq_iff_eq.2 (leading_packB off)
theorem nop : Statement .nop := fun _ => beq_iff_eq.2 (by decide : leading 11 nopWord = patternNop.toNat)
theorem brk : Statement .brk := fun _ => beq_iff_eq.2 (by decide : leading 11 breakWord = patternBreak.toNat)

end Sys2Proof.Laws.EncodeOpcode
end

