-- ==== Sys2Proof/Laws/Loader.lean ====
section
/-! SUPPORT. The loader's split and the initial data store (R101 to R104). -/

namespace Sys2Proof.Machine

/-- The instruction segment is no longer than the program (R101). -/
theorem instructionCount_le (rom : Rom) (ws : List InstrWord) : instructionCount rom ws ≤ ws.length := by
  induction ws with
  | nil => rfl
  | cons w ws ih => simp only [instructionCount, List.length_cons]; split <;> omega

/-- Line `k` is data when a BREAK stands before it, and not before (R101). -/
theorem instructionCount_le_iff (rom : Rom) (ws : List InstrWord) (k : Nat) (h : k < ws.length) :
    instructionCount rom ws ≤ k ↔ ∃ j, j < k ∧ ws[j]?.map (classify rom) = some (some .brk) := by
  induction ws generalizing k with
  | nil => simp at h
  | cons w ws ih =>
    simp only [instructionCount]
    split
    · rename_i hb
      constructor
      · intro hk; exact ⟨0, by omega, by simp [hb]⟩
      · rintro ⟨j, hj, -⟩; omega
    · rename_i hb
      cases k with
      | zero => simp
      | succ k =>
        rw [Nat.add_le_add_iff_right, ih k (by simpa using h)]
        constructor
        · rintro ⟨j, hj, he⟩; exact ⟨j + 1, by omega, by simpa using he⟩
        · rintro ⟨j, hj, he⟩
          cases j with
          | zero => simp [hb] at he
          | succ j => exact ⟨j, by omega, by simpa using he⟩

/-- The entries of the data words: word `k + j` at its own position, in full (R102, R104). -/
theorem mem_dataEntries {k : Nat} {ws : List InstrWord} {c : Int × Data} :
    c ∈ dataEntries k ws ↔ ∃ j, c.1 = position ((k + j : Nat) : Int) ∧ ws[j]? = some c.2 := by
  induction ws generalizing k with
  | nil => simp [dataEntries]
  | cons w ws ih =>
    simp only [dataEntries, List.mem_cons, ih]
    constructor
    · rintro (rfl | ⟨j, hp, hw⟩)
      · exact ⟨0, rfl, rfl⟩
      · exact ⟨j + 1, by rw [hp]; congr 2; omega, by simpa using hw⟩
    · rintro ⟨j, hp, hw⟩
      cases j with
      | zero => exact .inl (Prod.ext hp (show w = c.2 by simpa using hw).symm)
      | succ j => exact .inr ⟨j, by rw [hp]; congr 2; omega, by simpa using hw⟩

/-- The data words' positions strictly rise (R102). -/
theorem dataEntries_rising (k : Nat) (ws : List InstrWord) :
    (dataEntries k ws).Pairwise (fun a b => a.1 < b.1) := by
  induction ws generalizing k with
  | nil => exact .nil
  | cons w ws ih =>
    refine List.pairwise_cons.2 ⟨fun d hd => ?_, ih (k + 1)⟩
    obtain ⟨j, hp, -⟩ := mem_dataEntries.1 hd
    simp only [hp, position, posBase, posStep]
    omega

/-- The initial store is canonical when the program fits the position space (R40, R102). -/
theorem wf_dataEntries {k : Nat} {ws : List InstrWord} (h : 96 + 4 * ((k + ws.length : Nat) : Int) ≤ 2 ^ 63) :
    Memory.wf (dataEntries k ws) := by
  refine ⟨dataEntries_rising k ws, fun c hc => ?_⟩
  obtain ⟨j, hp, hw⟩ := mem_dataEntries.1 hc
  have hj := (List.getElem?_eq_some_iff.1 hw).1
  simp only [PositionOk, hp, position, posBase, posStep]
  omega

/-- A refused input: the number is that of its first line that does not parse, `k` lines standing before the list (R100). -/
theorem parseLines_error {k j : Nat} {ls : List (List Char)} (h : parseLines k ls = .error j) :
    ∃ m bad, j = k + m ∧ ls[m]? = some bad ∧ parseLine bad = none ∧
      ∀ m' l, m' < m → ls[m']? = some l → ∃ w, parseLine l = some w := by
  induction ls generalizing k j with
  | nil => cases h
  | cons l ls ih =>
    cases hp : parseLine l with
    | none =>
      simp only [parseLines, hp, Except.error.injEq] at h
      exact ⟨0, l, h.symm, rfl, hp, fun m' _ hm => absurd hm (Nat.not_lt_zero m')⟩
    | some w =>
      cases he : parseLines (k + 1) ls with
      | ok ws => simp [parseLines, hp, he, Except.map] at h
      | error j' =>
        obtain ⟨m, bad, hj, hb, hn, hm⟩ := ih he
        simp only [parseLines, hp, he, Except.map, Except.error.injEq] at h
        refine ⟨m + 1, bad, by omega, by simpa using hb, hn, fun m' l' hlt hl => ?_⟩
        cases m' with
        | zero => simp only [List.getElem?_cons_zero, Option.some.injEq] at hl; exact ⟨w, hl ▸ hp⟩
        | succ m' => exact hm m' l' (by omega) (by simpa using hl)

/-- The value of a line's characters, bit by bit (R100). -/
theorem bitsValue_cons (c : Char) (cs : List Char) (acc : Nat) :
    bitsValue (c :: cs) acc =
      if c = '0' then bitsValue cs (2 * acc) else if c = '1' then bitsValue cs (2 * acc + 1) else none := rfl

end Sys2Proof.Machine
end

