-- ==== Sys2Proof/Tests/Slice0.lean ====
section
/-! SUPPORT. Tests with the results that `spec/` gives (a vector's name is that of `95_test_vectors.md`), and for every
statement with hypotheses a state and operands that meet them. -/

namespace Sys2Proof.Tests

open Sys2Proof Sys2Proof.Machine

/-! ## Helpers -/

/-- The outcome is a next state of which `p` holds. -/
def gives (o : Host.Outcome State Fault Refusal) (p : State → Bool) : Bool :=
  match o with
  | .next t => p t
  | .fault _ => false
  | .refused _ => false

theorem exists_of_gives {o : Host.Outcome State Fault Refusal} {p : State → Bool} (h : gives o p = true) :
    ∃ t, o = .next t ∧ p t = true := by
  cases o with
  | next t => exact ⟨t, rfl, h⟩
  | fault f => cases h
  | refused r => cases h

/-- The reset state with some registers set and a data store. -/
def start (rs : List (Reg × Int)) (m : List (Int × Int)) : State :=
  rs.foldl (fun s p => s.setReg p.1 (BitVec.ofInt 64 p.2)) { State.reset with mem := m.map fun c => (c.1, BitVec.ofInt 32 c.2) }

/-- One step of a placed word leaves this value in this register, the index one on and the cycle counted. -/
def writes (s : State) (w : Nat) (r : Reg) (v : Int) : Bool :=
  gives (step (s.withFetchWord 32 w)) fun t =>
    t.reg r == BitVec.ofInt 64 v && t.mem == s.mem && t.idx == 1 && t.cycle == 2 && t.status == .running

/-- One step of a placed word leaves this store, and every register as it was. -/
def stores (s : State) (w : Nat) (m : List (Int × Int)) : Bool :=
  gives (step (s.withFetchWord 32 w)) fun t =>
    t.mem == m.map (fun c => (c.1, BitVec.ofInt 32 c.2)) && t.regs == s.regs && t.idx == 1 && t.status == .running

/-- One step of a placed word moves the index here and changes no register and no entry. -/
def goesTo (s : State) (w : Nat) (k : Int) : Bool :=
  gives (step (s.withFetchWord 32 w)) fun t =>
    t.idx == k && t.regs == s.regs && t.mem == s.mem && t.cycle == 2 && t.status == .running

/-- The same state with `STUR_WIDE` set to fault (U2). -/
def strict (s : State) : State := { s with cfg := { s.cfg with sturWide := .fault } }

/-- The decoder's answer with the default ROM. -/
def reads (w : InstrWord) (i : Instr) : Bool := decide (decode Rom.default w = .instr i)

def maxInt : Int := 9223372036854775807
def minInt : Int := -9223372036854775808

/-! ## WellFormed refuses what has no encoding (R62) -/

theorem test_wf_shamt : (Instr.add 0 0 0 64).wellFormed = false ∧ (Instr.sub 0 0 0 64).wellFormed = false ∧
    (Instr.and 0 0 0 64).wellFormed = false ∧ (Instr.orr 0 0 0 64).wellFormed = false ∧
    (Instr.eor 0 0 0 64).wellFormed = false ∧ (Instr.lsl 0 0 0 64).wellFormed = false ∧
    (Instr.asr 0 0 0 64).wellFormed = false ∧ (Instr.lsr 0 0 0 64).wellFormed = false := by decide
theorem test_wf_addr : (Instr.ldur 0 0 512).wellFormed = false ∧ (Instr.stur 0 0 512).wellFormed = false := by decide
theorem test_wf_imm : (Instr.addi 0 0 2048).wellFormed = false ∧ (Instr.addi 0 0 (-2049)).wellFormed = false ∧
    (Instr.subi 0 0 2048).wellFormed = false ∧ (Instr.subi 0 0 (-2049)).wellFormed = false := by decide
theorem test_wf_wide : (Instr.movz 0 4 0).wellFormed = false ∧ (Instr.movz 0 0 65536).wellFormed = false ∧
    (Instr.movk 0 4 0).wellFormed = false ∧ (Instr.movk 0 0 65536).wellFormed = false := by decide
theorem test_wf_offCB : (Instr.cbz 0 262144).wellFormed = false ∧ (Instr.cbz 0 (-262145)).wellFormed = false ∧
    (Instr.cbnz 0 262144).wellFormed = false ∧ (Instr.cbnz 0 (-262145)).wellFormed = false := by decide
theorem test_wf_offB : (Instr.b 33554432).wellFormed = false ∧ (Instr.b (-33554433)).wellFormed = false := by decide
theorem test_wf_bounds : (Instr.lsr 31 31 31 63).WellFormed ∧ (Instr.stur 31 31 511).WellFormed ∧
    (Instr.subi 31 31 (-2048)).WellFormed ∧ (Instr.addi 0 0 2047).WellFormed ∧ (Instr.movk 31 3 65535).WellFormed ∧
    (Instr.cbz 0 (-262144)).WellFormed ∧ (Instr.cbnz 0 262143).WellFormed ∧ (Instr.b (-33554432)).WellFormed ∧
    (Instr.b 33554431).WellFormed ∧ Instr.nop.WellFormed ∧ Instr.brk.WellFormed := by decide

/-! ## Decoding: a word of each constructor, written out by field (R63 to R70, R72) -/

theorem test_decode_add : reads 0b10001011000_00010_000000_00001_00011#32 (.add 3 1 2 0) = true := by decide
theorem test_decode_sub : reads 0b11001011000_00011_000000_00001_00100#32 (.sub 4 1 3 0) = true := by decide
theorem test_decode_and : reads 0b10001010000_00101_000000_00011_01010#32 (.and 10 3 5 0) = true := by decide
theorem test_decode_orr : reads 0b10101010000_00001_000000_00100_01011#32 (.orr 11 4 1 0) = true := by decide
theorem test_decode_eor : reads 0b11101010000_00100_000000_00011_01001#32 (.eor 9 3 4 0) = true := by decide
theorem test_decode_lsl : reads 0b11010011011_00000_111111_00001_00010#32 (.lsl 2 1 0 63) = true := by decide
theorem test_decode_asr : reads 0b11010011100_00000_000001_00100_00111#32 (.asr 7 4 0 1) = true := by decide
theorem test_decode_lsr : reads 0b11010011010_00000_111100_00100_01000#32 (.lsr 8 4 0 60) = true := by decide
theorem test_decode_ldur : reads 0b11111000010_111111111_11_11111_11111#32 (.ldur 31 31 511) = true := by decide
theorem test_decode_stur : reads 0b11111000000_000000001_00_00010_00011#32 (.stur 3 2 1) = true := by decide
theorem test_decode_addi : reads 0b1001000100_100000000000_00001_00010#32 (.addi 2 1 (-2048)) = true := by decide
theorem test_decode_subi : reads 0b1101000100_111111111111_00001_00010#32 (.subi 2 1 (-1)) = true := by decide
theorem test_decode_movz : reads 0b110100101_10_0000000000000001_00000#32 (.movz 0 2 1) = true := by decide
theorem test_decode_movk : reads 0b111100101_11_1111111111111111_11111#32 (.movk 31 3 65535) = true := by decide
theorem test_decode_cbz : reads 0b10110100_1000000000000000000_00000#32 (.cbz 0 (-262144)) = true := by decide
theorem test_decode_cbnz : reads 0b10110101_0111111111111111111_11111#32 (.cbnz 31 262143) = true := by decide
theorem test_decode_b : reads 0b000101_10000000000000000000000000#32 (.b (-33554432)) = true := by decide
theorem test_decode_nop : reads 0b00000000000_111111111111111111111#32 .nop = true := by decide
theorem test_decode_brk : reads 0b11111110110_000000000000000000000#32 .brk = true ∧ reads 0xFEDEFFE7#32 .brk = true := by
  decide

/-- V-E22 to V-E25, V-E36, V-E42, V-E49: no class, at the edges of the classes. -/
theorem test_decode_unknown :
    [0xFFFFFFFF#32, 0x00200000#32, 0x13FFFFFF#32, 0x18000000#32, 0x91400000#32, 0xCA000000#32, 0xF8200000#32].all
      (fun w => decide (decode Rom.default w = .unknown w)) = true := by decide

/-- R74: the outputs of the decoder for an unrecognised word and for a recognised one. -/
theorem test_decode_outputs :
    (decode Rom.default 0xFFFFFFFF#32).illegal = true ∧ (decode Rom.default 0xFFFFFFFF#32).mnemonic = "" ∧
    (decode Rom.default 0xFFFFFFFF#32).format = none ∧ (decode Rom.default 0x14000000#32).illegal = false ∧
    (decode Rom.default 0x14000000#32).mnemonic = "B" ∧ (decode Rom.default 0x14000000#32).format = some .b ∧
    opcodeOf .b 0x14000000#32 = 5 ∧ opcodeOf .add 0x8B020023#32 = 1112 := by decide

/-- The alternative EOR pattern 1616 of R72, as a parameter. -/
def romEor1616 : Rom := { Rom.default with eor := 0b11001010000#11 }

theorem test_decode_other_rom : decode romEor1616 0xCA000000#32 = .instr (.eor 0 0 0 0) ∧
    decode romEor1616 0xEA000000#32 = .unknown 0xEA000000#32 := by decide

/-- The words of program P1, the right column encoded. -/
theorem test_encode_p1 :
    [Instr.addi 1 31 10, .subi 2 1 (-5), .add 3 1 2 0, .sub 4 1 3 0, .movz 5 1 43981, .movk 5 0 4660, .lsl 6 3 0 4].map
      (encode Rom.default) =
    [0x91002BE1#32, 0xD13FEC22#32, 0x8B020023#32, 0xCB030024#32, 0xD2B579A5#32, 0xF2824685#32, 0xD3601066#32] ∧
    [Instr.asr 7 4 0 1, .lsr 8 4 0 60, .eor 9 3 4 0, .and 10 3 5 0, .orr 11 4 1 0, .nop, .brk].map (encode Rom.default) =
    [0xD3800487#32, 0xD340F088#32, 0xEA040069#32, 0x8A05006A#32, 0xAA01008B#32, 0x00000000#32, 0xFEDEFFE7#32] := by decide

/-- V-D6, V-D13 and P4: the D, CB and B words. -/
theorem test_encode_rest :
    [Instr.stur 2 1 1, .ldur 3 1 1, .cbz 0 2, .cbnz 1 (-2), .b (-7)].map (encode Rom.default) =
    [0xF8001022#32, 0xF8401023#32, 0xB4000040#32, 0xB5FFFFC1#32, 0x17FFFFF9#32] := by decide

theorem test_table_word : decodeTableWord 32 0x8B020023 = some (.add 3 1 2 0) ∧ decodeTableWord 32 0xFFFFFFFF = none ∧
    decodeTableWord 32 0 = some .nop ∧ decodeTableWord 40 0 = none := by decide

/-! ## One step of each instruction -/

/-- V-A1, V-A4. -/
theorem test_add_wraps : writes (start [(1, maxInt), (2, 1)] []) 0x8B020023 3 minInt = true := by decide
theorem test_add_r31 : writes (start [(31, 9), (1, 1)] []) 0x8B0103FF 31 10 = true := by decide
/-- V-A6, V-A7. -/
theorem test_sub_wraps : writes (start [(1, minInt), (2, 1)] []) 0xCB020023 3 maxInt = true := by decide
theorem test_sub_order : writes (start [(1, 0), (2, 1)] []) 0xCB020023 3 (-1) = true := by decide
/-- V-A10. -/
theorem test_and : writes (start [(1, -16), (2, 255)] []) 0x8A020023 3 240 = true := by decide
/-- V-A11. -/
theorem test_orr : writes (start [(1, minInt), (2, 1)] []) 0xAA020023 3 (-9223372036854775807) = true := by decide
/-- V-A13, V-A14. -/
theorem test_eor : writes (start [(1, -1), (2, maxInt)] []) 0xEA020023 3 minInt = true := by decide
theorem test_eor_same : writes (start [(6, 99)] []) 0xEA0600C6 6 0 = true := by decide
/-- V-I1, V-I2. -/
theorem test_addi_wraps : writes (start [(1, maxInt)] []) 0x91000422 2 minInt = true := by decide
theorem test_addi_signed : writes (start [] []) 0x91200022 2 (-2048) = true := by decide
/-- V-I7, V-I9. -/
theorem test_subi_most_negative : writes (start [] []) 0xD1200022 2 2048 = true := by decide
theorem test_subi_negative : writes (start [(1, 10)] []) 0xD13FEC22 2 15 = true := by decide
/-- V-H3, V-H4. -/
theorem test_lsl_loses_bits : writes (start [(1, 4611686018427387905)] []) 0xD3600822 2 4 = true := by decide
theorem test_lsl_ignores_rm : writes (start [(1, 3), (31, 99)] []) 0xD37F1022 2 48 = true := by decide
/-- V-H5, V-H6. -/
theorem test_asr_63 : writes (start [(1, minInt)] []) 0xD380FC22 2 (-1) = true := by decide
theorem test_asr_floor : writes (start [(1, -7)] []) 0xD3800422 2 (-4) = true := by decide
/-- V-H10, V-H11. -/
theorem test_lsr_zero_in : writes (start [(1, -8)] []) 0xD3400422 2 9223372036854775804 = true := by decide
theorem test_lsr_0 : writes (start [(1, -8)] []) 0xD3400022 2 (-8) = true := by decide
/-- V-M3, V-M4. -/
theorem test_movz_sign : writes (start [(3, -1)] []) 0xD2F00003 3 minInt = true := by decide
theorem test_movz_top : writes (start [(3, 5)] []) 0xD2FFFFE3 3 (-281474976710656) = true := by decide
/-- V-M7, V-M8. -/
theorem test_movk_slice : writes (start [(3, 1229801703532086340)] []) 0xF2B579A3 3 1229801705555444804 = true := by decide
theorem test_movk_top : writes (start [(3, 1229801703532086340)] []) 0xF2F00003 3 (-9223334506571545532) = true := by decide
/-- V-D1, V-D2. -/
theorem test_ldur_sign : writes (start [(1, 128)] [(128, 7), (132, -3)]) 0xF8401023 3 (-3) = true := by decide
theorem test_ldur_absent : writes (start [(1, 1000), (2, 55)] []) 0xF8403022 2 0 = true := by decide
/-- V-D8, V-D13. -/
theorem test_stur_low_word : stores (start [(1, 200), (2, 4294967301)] []) 0xF8000022 [(200, 5)] = true := by decide
theorem test_stur_wraps : stores (start [(1, maxInt), (2, 7)] []) 0xF8001022 [(-9223372036854775805, 7)] = true := by decide
/-- V-B1, V-B2. -/
theorem test_cbz_taken : goesTo (start [] []) 0xB4000040 2 = true := by decide
theorem test_cbz_not_taken : goesTo (start [(1, 1)] []) 0xB4FFFFE1 1 = true := by decide
/-- V-B3, V-B4. -/
theorem test_cbnz_not_taken : goesTo (start [] []) 0xB50000A7 1 = true := by decide
theorem test_cbnz_taken : goesTo (start [(1, minInt)] []) 0xB5FFFFC1 (-2) = true := by decide
/-- V-B4c, V-B7. -/
theorem test_b_itself : goesTo (start [] []) 0x14000000 0 = true := by decide
theorem test_b_far : goesTo (start [] []) 0x15FFFFFF 33554431 = true := by decide
/-- V-Y1. -/
theorem test_nop : goesTo (start [(1, 5)] [(96, 3)]) 0 1 = true := by decide
/-- V-Y2: traced, then neither index nor counter moves. -/
theorem test_brk : gives (step (State.reset.withFetchWord 32 0xFEDEFFE7)) (fun t =>
    t.status == .halted && t.idx == 0 && t.cycle == 1 && t.trace == [⟨1, 96, breakWord, .brk, State.reset.regs, []⟩]) =
    true := by decide

/-! ## The step around the instruction -/

/-- V-S4, R111: the first step from reset, no program loaded. -/
theorem test_reset_step : gives (step State.reset) (fun t =>
    decide (t = { State.reset with status := .fault (.controlFlowOutOfRange 0) })) = true := by decide

/-- V-Y3. -/
theorem test_decode_failure : gives (step (State.reset.withFetchWord 32 0xFFFFFFFF)) (fun t =>
    t.status == .fault (.decodeFailure 0 0xFFFFFFFF#32) && t.idx == 0 && t.cycle == 1 && t.trace == []) = true := by decide

/-- V-B6, the step after the branch: the index is N. -/
theorem test_out_of_range : gives (step { load defaultConfig [0x14000002#32, 0xFEDEFFE7#32] with idx := 2 }) (fun t =>
    t.status == .fault (.controlFlowOutOfRange 2)) = true := by decide

/-- P5, its 100th step: the guard fires with the instruction's effect, record and count standing. -/
theorem test_guard : gives (step { State.reset.withFetchWord 32 0x14000000 with cycle := 100 }) (fun t =>
    t.status == .fault (.runawayExecution 101) && t.idx == 0 && t.cycle == 101 && t.trace.length == 1) = true := by decide

/-- P8, its last step: a BREAK at cycle 100 halts. -/
theorem test_guard_break : gives (step { State.reset.withFetchWord 32 0xFEDEFFE7 with cycle := 100 }) (fun t =>
    t.status == .halted && t.cycle == 100) = true := by decide

/-- U2: with the stricter parameter V-D9's store stops, with the value and the position. -/
theorem test_strict_stur :
    exec (.stur 2 1 0) (strict (start [(1, 200), (2, 2147483648)] [])) = .fault (.storeTooWide 200 2147483648#64) := rfl

/-- R182: the record holds the position of the instruction and the registers after its effect. -/
theorem test_trace_record : gives (step (State.reset.withFetchWord 32 0x910007E1)) (fun t =>
    t.trace.map (fun r => (r.cycle, r.pos, r.word, r.instr, r.regs[1])) ==
      [(1, 96, 0x910007E1#32, .addi 1 31 1, 1#64)]) = true := by decide

theorem test_codes : (ErrorKind.decodeFailure 0 0#32).code = 1 ∧ (ErrorKind.controlFlowOutOfRange 0).code = 2 ∧
    (ErrorKind.runawayExecution 0).code = 3 := by decide

/-- R90: the decoded form of the slot about to run. -/
theorem test_fetch_decoded : (State.reset.withFetchWord 32 0x14000000).fetchDecoded = some (.instr (.b 0)) ∧
    State.reset.fetchDecoded = none := by decide

theorem test_reset_memory : Memory.wf State.reset.mem := by decide

/-! ## Loader and text -/

/-- V-S1. -/
def wordsS1 : List InstrWord :=
  [0x00000000#32, 0xFEDEFFE7#32, 0x8B020023#32, 0xFEDEFFE7#32, 0x00000000#32, 0xFFFFFFFF#32, 0x80000000#32, 0x7FFFFFFF#32]

theorem test_load_s1 : (load defaultConfig wordsS1).imem = [0x00000000#32, 0xFEDEFFE7#32] ∧
    (load defaultConfig wordsS1).mem.map (fun c => (c.1, c.2.toInt)) =
      [(104, -1962803165), (108, -18939929), (112, 0), (116, -1), (120, -2147483648), (124, 2147483647)] := by decide

/-- A program line and its word (E1). -/
def lineAdd : String := "10001011000000100000001000000100"

theorem test_parse_line : parseLine lineAdd.toList = some 0x8B020204#32 ∧ parseLine "101".toList = none ∧
    parseLine "2000101100000010000000100000010x".toList = none := by decide

/-- R78, R92: the operand strings of the spec's examples (P1, V-D1). -/
theorem test_render : render (.add 3 1 2 0) = "ADD R3, R1, R2" ∧ render (.lsl 6 3 0 4) = "LSL R6, R3, #4" ∧
    render (.subi 2 1 (-5)) = "SUBI R2, R1, #-5" ∧ render (.movz 5 1 43981) = "MOVZ R5, 43981, LSL 16" ∧
    render (.ldur 3 1 1) = "LDUR R3, [R1, #1]" ∧ render (.cbz 0 2) = "CBZ R0, #2" ∧ render (.b (-7)) = "B #-7" := by decide

theorem test_bit_groups : bitGroups .r = some [11, 5, 6, 5, 5] ∧ bitGroups .d = some [11, 9, 2, 5, 5] := by decide

/-! ## Witnesses: the hypotheses of each statement, met -/

/-! ### Encoding -/

/-- Unread bits set and not (V-E5, V-E6, V-E20, V-E21), operands at both ends of their ranges, and another ROM. -/
theorem witness_DecodeRecovers :
    [(Rom.default, Instr.ldur 31 31 511, 0xF85FFFFF#32), (Rom.default, .ldur 31 31 511, 0xF85FF3FF#32),
     (Rom.default, .brk, 0xFEC00000#32), (Rom.default, .nop, 0x001FFFFF#32), (Rom.default, .add 31 31 31 63, 0x8B1FFFFF#32),
     (Rom.default, .addi 2 1 (-2048), 0x91200022#32), (Rom.default, .movk 31 3 65535, 0xF2FFFFFF#32),
     (Rom.default, .cbz 0 (-262144), 0xB4800000#32), (Rom.default, .b 33554431, 0x15FFFFFF#32),
     (romEor1616, .eor 0 0 0 0, 0xCA000000#32)].all (fun c =>
      decide (c.1.PrefixFree ∧ c.2.1.WellFormed ∧ (c.2.2 ^^^ encode c.1 c.2.1) &&& ~~~unreadBits c.2.1.op = 0#32)) =
    true := by decide +kernel

/-- A word of each row, whatever its other bits; the same words serve every statement that says `RowDecodes`. -/
theorem witness_RowDecodes :
    [(0xFFE00000#32, 0x8B000000#32, 0x8B1FFFFF#32), (0xFFE00000#32, 0xCB000000#32, 0xCB020023#32),
     (0xFFE00000#32, 0x8A000000#32, 0x8A020023#32), (0xFFE00000#32, 0xAA000000#32, 0xAA020023#32),
     (0xFFE00000#32, 0xEA000000#32, 0xEA020023#32), (0xFFE00000#32, 0xD3600000#32, 0xD37F1022#32),
     (0xFFE00000#32, 0xD3800000#32, 0xD3800422#32), (0xFFE00000#32, 0xD3400000#32, 0xD340FC22#32),
     (0xFFE00000#32, 0xF8400000#32, 0xF85FFFFF#32), (0xFFE00000#32, 0xF8000000#32, 0xF8001043#32)].all
      (fun c => c.2.2 &&& c.1 == c.2.1) = true ∧
    [(0xFFC00000#32, 0x91000000#32, 0x913FFC21#32), (0xFFC00000#32, 0xD1000000#32, 0xD13FFC22#32),
     (0xFF800000#32, 0xD2800000#32, 0xD2FFFFE3#32), (0xFF800000#32, 0xF2800000#32, 0xF2FFFFFF#32),
     (0xFF000000#32, 0xB4000000#32, 0xB4FFFFE1#32), (0xFF000000#32, 0xB5000000#32, 0xB57FFFFF#32),
     (0xFC000000#32, 0x14000000#32, 0x17FFFFFF#32), (0xFFE00000#32, 0x00000000#32, 0x001FFFFF#32),
     (0xFFE00000#32, 0xFEC00000#32, 0xFEDEFFE7#32)].all (fun c => c.2.2 &&& c.1 == c.2.1) = true := by decide

/-- Words of no row (V-E22, V-E23, V-E25, V-E36). -/
theorem witness_TableRowsUnknown :
    [0xFFFFFFFF#32, 0x00200000#32, 0x18000000#32, 0x91400000#32].all (fun w =>
      [(0xFFE00000#32, 0x8B000000#32), (0xFFE00000#32, 0xCB000000#32), (0xFFE00000#32, 0x8A000000#32),
       (0xFFE00000#32, 0xAA000000#32), (0xFFE00000#32, 0xEA000000#32), (0xFFE00000#32, 0xD3600000#32),
       (0xFFE00000#32, 0xD3800000#32), (0xFFE00000#32, 0xD3400000#32), (0xFFE00000#32, 0xF8400000#32),
       (0xFFE00000#32, 0xF8000000#32)].all (fun c => w &&& c.1 != c.2) &&
      [(0xFFC00000#32, 0x91000000#32), (0xFFC00000#32, 0xD1000000#32), (0xFF800000#32, 0xD2800000#32),
       (0xFF800000#32, 0xF2800000#32), (0xFF000000#32, 0xB4000000#32), (0xFF000000#32, 0xB5000000#32),
       (0xFC000000#32, 0x14000000#32), (0xFFE00000#32, 0x00000000#32), (0xFFE00000#32, 0xFEC00000#32)].all
        (fun c => w &&& c.1 != c.2)) = true := by decide

theorem witness_Classification : romEor1616.PrefixFree ∧ romEor1616.selects 0xCA000000#32 .eor = true ∧
    romEor1616.selects 0xFEDEFFE7#32 .brk = true := by decide

theorem witness_SignExtension : (0 < 12 ∧ (0x7FF#12).toNat < 2 ^ (12 - 1) ∧ ¬(0x800#12).toNat < 2 ^ (12 - 1)) ∧
    (-2 ^ (12 - 1) ≤ (-2048 : Int) ∧ (-2048 : Int) < 2 ^ (12 - 1)) ∧
    (-2 ^ (12 - 1) ≤ (2047 : Int) ∧ (2047 : Int) < 2 ^ (12 - 1)) := by decide

theorem witness_UnusedBits : classify Rom.default 0xF85FF3FF#32 = some .ldur ∧
    (0xF85FF3FF#32 ^^^ 0xF85FFFFF#32) &&& ~~~unreadBits .ldur = 0#32 ∧ classify Rom.default 0#32 = some .nop ∧
    (0#32 ^^^ 0x001FFFFF#32) &&& ~~~unreadBits .nop = 0#32 := by decide

/-! ### Results -/

theorem witness_WideOk : WideOk 0 0 ∧ WideOk 3 65535 := by decide

/-- V-D11 and V-D13: exact, and wrapped. -/
theorem witness_IsPosition : IsPosition 0 (BitVec.ofInt 64 (-2044)) 511 ∧
    IsPosition (-9223372036854775805) (BitVec.ofInt 64 maxInt) 1 :=
  ⟨⟨by decide, 0, by decide⟩, ⟨by decide, -1, by decide⟩⟩

/-- LDUR: an entry (V-D1) and none (V-D2). -/
theorem witness_Ldur : (IsPosition 132 ((start [(1, 128)] [(128, 7), (132, -3)]).reg 1) 1 ∧
      Memory.entry (start [(1, 128)] [(128, 7), (132, -3)]).mem 132 = some 0xFFFFFFFD#32) ∧
    (IsPosition 1012 ((start [(1, 1000)] []).reg 1) 3 ∧ Memory.entry (start [(1, 1000)] []).mem 1012 = none) :=
  ⟨⟨⟨by decide, 0, by decide⟩, by decide⟩, ⟨by decide, 0, by decide⟩, by decide⟩

/-- STUR: truncating with a wide value (V-D8), and strict with the two values at the ends of what fits. -/
theorem witness_Stur :
    (IsPosition 200 ((start [(1, 200), (2, 4294967301)] []).reg 1) 0 ∧
      (start [(1, 200), (2, 4294967301)] []).cfg.sturWide = .truncate) ∧
    (IsPosition 200 ((strict (start [(1, 200), (2, 2147483647)] [])).reg 1) 0 ∧
      FitsWord ((strict (start [(1, 200), (2, 2147483647)] [])).reg 2)) ∧
    FitsWord ((strict (start [(1, 200), (2, -2147483648)] [])).reg 2) :=
  ⟨⟨⟨by decide, 0, by decide⟩, by decide⟩, ⟨⟨by decide, 0, by decide⟩, by decide⟩, by decide⟩

/-- The strict STUR: the two values just outside. -/
theorem witness_StrictStur :
    (IsPosition 200 ((strict (start [(1, 200), (2, 2147483648)] [])).reg 1) 0 ∧
      (strict (start [(1, 200), (2, 2147483648)] [])).cfg.sturWide = .fault ∧
      2 ^ 31 ≤ ((strict (start [(1, 200), (2, 2147483648)] [])).reg 2).toInt) ∧
    ((strict (start [(1, 200), (2, -2147483649)] [])).reg 2).toInt < -2 ^ 31 :=
  ⟨⟨⟨by decide, 0, by decide⟩, by decide, by decide⟩, by decide⟩

/-- CBZ and CBNZ: a zero and a non-zero register, the most negative value too. -/
theorem witness_CompareBranch : ((start [] []).reg 0).toInt = 0 ∧ ((start [(1, minInt)] []).reg 1).toInt ≠ 0 ∧
    ((start [(31, -1)] []).reg 31).toInt ≠ 0 := by decide

theorem witness_EveryInstructionCompletes : (start [] []).cfg.sturWide = .truncate := by decide

/-! ### Frames -/

theorem witness_WritingInstructions :
    (writesReg (.movk 31 3 65535) = some 31 ∧ ∃ t, exec (.movk 31 3 65535) (start [] []) = .next t) ∧
    (writesReg (.ldur 1 1 0) = some 1 ∧ ∃ t, exec (.ldur 1 1 0) (start [(1, 128)] [(128, 7)]) = .next t) :=
  ⟨⟨rfl, _, rfl⟩, rfl, _, rfl⟩

theorem witness_SturFrame : ∃ t, exec (.stur 2 1 511) (start [(1, -2044), (2, 7)] [(4, 1)]) = .next t := ⟨_, rfl⟩

theorem witness_BranchFrame : (∃ t, exec (.cbz 0 2) (start [] []) = .next t) ∧
    (∃ t, exec (.cbnz 0 2) (start [] []) = .next t) ∧ (∃ t, exec (.b (-7)) (start [] []) = .next t) ∧
    ∃ t, exec .nop (start [] []) = .next t := ⟨⟨_, rfl⟩, ⟨_, rfl⟩, ⟨_, rfl⟩, _, rfl⟩

/-- Two states that agree on what ADD R3, R1, R2 reads and differ elsewhere; register 4 is not written. -/
theorem witness_RegistersRead :
    (∀ r ∈ readsRegs (.add 3 1 2 0), (start [(1, 5), (4, 9)] []).reg r = (start [(1, 5), (4, 8)] []).reg r) ∧
    (start [(1, 5), (4, 9)] []).mem = (start [(1, 5), (4, 8)] []).mem ∧
    (∃ t, exec (.add 3 1 2 0) (start [(1, 5), (4, 9)] []) = .next t) ∧
    (∃ t, exec (.add 3 1 2 0) (start [(1, 5), (4, 8)] []) = .next t) ∧ writesReg (.add 3 1 2 0) ≠ some 4 :=
  ⟨by decide, by decide, ⟨_, rfl⟩, ⟨_, rfl⟩, by decide⟩

/-- One instruction of each kind of operands that lets every listed register show. -/
theorem witness_RegistersShow :
    [Instr.sub 3 1 2 63, .lsl 2 1 0 63, .ldur 2 1 511, .stur 2 1 511, .addi 2 1 (-2048), .movk 31 3 65535, .cbz 31 2,
      .cbnz 0 (-262144)].all (fun i => i.wellFormed && operandsApart i) = true ∧
    (1 : Reg) ∈ readsRegs (.sub 3 1 2 63) ∧ writesReg (.sub 3 1 2 63) = some 3 := by decide

theorem witness_IndexMoves : (∃ t, exec (.cbz 0 (-2)) (start [] []) = .next t ∧ Instr.cbz 0 (-2) ≠ .brk) ∧
    ∃ t, exec .brk (start [] []) = .next t := ⟨⟨_, rfl, by decide⟩, _, rfl⟩

/-! ### The data store -/

theorem witness_WriteThenRead : (200 : Int) ≠ 201 ∧ Memory.entry [(200, 1#32)] 200 = some 1#32 := by decide

theorem witness_CanonicalStores : Memory.wf [(-4, 3#32), (0, 0#32), (128, 7#32)] ∧
    ∀ p, Memory.entry [(-4, 3#32), (0, 0#32), (128, 7#32)] p =
      Memory.entry (Memory.write [(-4, 3#32), (128, 7#32)] 0 0#32) p := ⟨by decide, fun _ => rfl⟩

/-- A listed entry of value 0, and a position with no entry. -/
theorem witness_AbsentPosition : Memory.wf [(0, 0#32), (128, 7#32)] ∧ (128, 7#32) ∈ [((0 : Int), 0#32), (128, 7#32)] ∧
    ∀ v, ((4 : Int), v) ∉ [((0 : Int), 0#32), (128, 7#32)] := ⟨by decide, by decide, fun v => by simp⟩

/-- E4's STUR and LDUR. -/
theorem witness_LoadAfterStore : FitsWord ((start [(1, 7)] []).reg 1) ∧ ∃ t u, exec (.stur 1 31 50) (start [(1, 7)] []) = .next t ∧
    effectivePosition (t.reg 31) 50 = effectivePosition ((start [(1, 7)] []).reg 31) 50 ∧
    exec (.ldur 2 31 50) t = .next u := ⟨by decide, _, _, rfl, rfl, rfl⟩

/-! ### The step -/

/-- The four cases: an instruction inside the bound, BREAK, an instruction that passes the bound, and a strict STUR that
stops. -/
theorem witness_StepRuns :
    ((State.reset.withFetchWord 32 0x910007E1).status = .running ∧ (State.reset.withFetchWord 32 0x910007E1).idx = (0 : Nat) ∧
      (State.reset.withFetchWord 32 0x910007E1).imem[0]? = some 0x910007E1#32 ∧
      decode (State.reset.withFetchWord 32 0x910007E1).cfg.rom 0x910007E1#32 = .instr (.addi 1 31 1)) ∧
    (gives (exec (.addi 1 31 1) (State.reset.withFetchWord 32 0x910007E1)) (fun t =>
      t.status != .halted && t.cfg.maxCycles == some 100 && t.cycle + 1 ≤ 100) = true) ∧
    (gives (exec .brk (State.reset.withFetchWord 32 0xFEDEFFE7)) (fun t => t.status == .halted) = true) ∧
    (gives (exec (.b 0) { State.reset.withFetchWord 32 0x14000000 with cycle := 100 }) (fun t =>
      t.status != .halted && t.cfg.maxCycles == some 100 && decide (100 < t.cycle + 1)) = true) ∧
    (strict ((start [(1, 200), (2, 2147483648)] []).withFetchWord 32 0xF8000022)).fetch = some 0xF8000022#32 ∧
    exec (.stur 2 1 0) (strict ((start [(1, 200), (2, 2147483648)] []).withFetchWord 32 0xF8000022)) =
      .fault (.storeTooWide 200 2147483648#64) :=
  ⟨by decide, by decide, by decide, by decide, by decide, rfl⟩

/-- Below 0, at N, and a step that raises it. -/
theorem witness_IndexOutOfRange :
    ({ load defaultConfig [0x17FFFFFF#32, 0xFEDEFFE7#32] with idx := -1 }.status = .running ∧ (-1 : Int) < 0) ∧
    ({ load defaultConfig [0x14000002#32, 0xFEDEFFE7#32] with idx := 2 }.status = .running ∧
      (((load defaultConfig [0x14000002#32, 0xFEDEFFE7#32]).imem.length : Nat) : Int) ≤ 2) ∧
    ∃ t, step { load defaultConfig [0x17FFFFFF#32, 0xFEDEFFE7#32] with idx := -1 } = .next t ∧
      decide (t.status = .fault (.controlFlowOutOfRange (-1))) = true := ⟨by decide, by decide, exists_of_gives (by decide)⟩

theorem witness_UnknownWord :
    ((load defaultConfig [0xFFFFFFFF#32]).status = .running ∧ (load defaultConfig [0xFFFFFFFF#32]).idx = (0 : Nat) ∧
      (load defaultConfig [0xFFFFFFFF#32]).imem[0]? = some 0xFFFFFFFF#32 ∧
      classify (load defaultConfig [0xFFFFFFFF#32]).cfg.rom 0xFFFFFFFF#32 = none) ∧
    ∃ t, step (load defaultConfig [0xFFFFFFFF#32]) = .next t ∧
      decide (t.status = .fault (.decodeFailure 0 0xFFFFFFFF#32)) = true := ⟨by decide, exists_of_gives (by decide)⟩

theorem witness_Stopped : State.reset.halt.status ≠ .running ∧
    (State.reset.raise (.controlFlowOutOfRange 0)).status ≠ .running := by decide

/-- A step from RUNNING into each of the four ends; the last two serve for the fault entries too. -/
theorem witness_RunEnds :
    (State.reset.status = .running ∧ (State.reset.withFetchWord 32 0).status = .running) ∧
    (∃ t, step (State.reset.withFetchWord 32 0xFEDEFFE7) = .next t ∧ decide (t.status = .halted) = true) ∧
    (∃ t, step State.reset = .next t ∧ decide (t.status = .fault (.controlFlowOutOfRange 0)) = true) ∧
    (∃ t, step (State.reset.withFetchWord 32 0xFFFFFFFF) = .next t ∧
      decide (t.status = .fault (.decodeFailure 0 0xFFFFFFFF#32)) = true) ∧
    ∃ t, step { State.reset.withFetchWord 32 0x14000000 with cycle := 100 } = .next t ∧
      decide (t.status = .fault (.runawayExecution 101)) = true :=
  ⟨by decide, exists_of_gives (by decide), exists_of_gives (by decide), exists_of_gives (by decide),
    exists_of_gives (by decide)⟩

theorem executes_branch : Executes (State.reset.withFetchWord 32 0x14000000) 0x14000000#32 (.b 0) :=
  ⟨by decide, by decide, by decide⟩

theorem executes_brk : Executes (State.reset.withFetchWord 32 0xFEDEFFE7) 0xFEDEFFE7#32 .brk :=
  ⟨by decide, by decide, by decide⟩

/-- Steps that execute an instruction, a BREAK, and nothing (out of range). -/
theorem witness_TraceAndCycle :
    ((∃ w i, Executes (State.reset.withFetchWord 32 0x14000000) w i ∧ i ≠ .brk) ∧
      ∃ t, step (State.reset.withFetchWord 32 0x14000000) = .next t ∧ true = true) ∧
    (Executes (State.reset.withFetchWord 32 0xFEDEFFE7) 0xFEDEFFE7#32 .brk ∧
      ∃ t, step (State.reset.withFetchWord 32 0xFEDEFFE7) = .next t ∧ true = true) ∧
    ((∀ w i, ¬Executes State.reset w i) ∧ ∃ t, step State.reset = .next t ∧ true = true) := by
  refine ⟨⟨⟨_, _, executes_branch, by decide⟩, exists_of_gives (p := fun _ => true) (by decide)⟩,
    ⟨executes_brk, exists_of_gives (p := fun _ => true) (by decide)⟩, ?_,
    exists_of_gives (p := fun _ => true) (by decide)⟩
  rintro w i ⟨-, h, -⟩
  cases h

theorem witness_NoStepWrites :
    ∃ t, Host.Core.run core 2 (load defaultConfig [0x910007E1#32, 0xFEDEFFE7#32]) = .next t ∧ t.status = .halted := by
  obtain ⟨t, h, ht⟩ := exists_of_gives (o := Host.Core.run core 2 (load defaultConfig [0x910007E1#32, 0xFEDEFFE7#32]))
    (p := fun t => decide (t.status = .halted)) (by decide)
  exact ⟨t, h, of_decide_eq_true ht⟩

theorem witness_Placed : 32 ≤ 32 ∧ State.reset.cfg.rom = Rom.default ∧ decodeTableWord 32 0xB4000040 = some (.cbz 0 2) := by
  decide

/-! ### The invariant and whole runs -/

/-- A program with a data word, as it is loaded. -/
def loaded : State := load defaultConfig [0x910007E1#32, 0xFEDEFFE7#32, 0x00000007#32]

theorem loaded_inv : Inv loaded where
  store := by decide
  dumps := by intro r hr; cases hr
  count := by decide
  numbered := by intro k r h; simp [loaded, load, State.reset] at h
  last := by intro r h; cases h
  bound := by intro m h; injection h with h; subst h; decide
  halted := by intro h; cases h
  fault := by intro k h; cases h

theorem witness_StepKeepsTheInvariant : Inv loaded ∧ ∃ t, step loaded = .next t ∧ true = true :=
  ⟨loaded_inv, exists_of_gives (p := fun _ => true) (by decide)⟩

theorem witness_LoadedProgram : 96 + 4 * (([0x910007E1#32, 0xFEDEFFE7#32] : List InstrWord).length : Int) ≤ 2 ^ 63 := by decide

theorem witness_GuardedRunsEnd : loaded.cfg.maxCycles = some 100 ∧ loaded.cfg.sturWide = .truncate := by decide

/-- A run that halts, and one with `MAX_CYCLES` 0 that executes one instruction. -/
theorem witness_GuardedRunsEmit :
    (defaultConfig.maxCycles = some 100 ∧
      gives (Host.Core.run core 2 (load defaultConfig [0x910007E1#32, 0xFEDEFFE7#32])) (fun t => t.status == .halted) = true) ∧
    gives (Host.Core.run core 1 (load { defaultConfig with maxCycles := some 0 } [0x14000000#32])) (fun t =>
      t.trace.length == 1 && t.status == .fault (.runawayExecution 2)) = true := by decide

/-! ### The loader -/

/-- V-S1 with b = 1. -/
theorem witness_LoaderSplits : wordsS1[1]?.map (classify defaultConfig.rom) = some (some .brk) ∧
    ∀ k, k < 1 → wordsS1[k]?.map (classify defaultConfig.rom) ≠ some (some .brk) := by decide

theorem witness_LoaderWithoutBreak :
    (∀ w ∈ [0x910007E1#32, 0x91000421#32], classify defaultConfig.rom w ≠ some .brk) ∧
    gives (Host.Core.run core 3 (load defaultConfig [0x910007E1#32, 0x91000421#32])) (fun t =>
      t.status == .fault (.controlFlowOutOfRange 2)) = true :=
  ⟨List.forall_mem_cons.2 ⟨by decide, List.forall_mem_singleton.2 (by decide)⟩, by decide +kernel⟩

theorem witness_LoadedBreak : (load defaultConfig wordsS1).imem[1]? = some 0xFEDEFFE7#32 ∧
    classify defaultConfig.rom 0xFEDEFFE7#32 = some .brk := by decide

theorem lineAdd_chars : ∀ c ∈ lineAdd.toList, c = '0' ∨ c = '1' := by
  have h : lineAdd.toList.all (fun c => c == '0' || c == '1') = true := by decide
  simpa using List.all_eq_true.1 h

/-- The contract of one line (R100), as the statement says it. -/
abbrev LineOk (l : String) : Prop := l.toList.length = 32 ∧ ∀ c ∈ l.toList, c = '0' ∨ c = '1'

theorem lineAdd_ok : LineOk lineAdd := ⟨by decide, lineAdd_chars⟩
theorem line_too_short : ¬LineOk "1" := fun h => absurd h.1 (by decide)
theorem line_with_other : ¬LineOk "0000000000000000000000000000000x" := fun h => absurd (h.2 'x' (by decide)) (by decide)

/-- Lines of the contract; a line too short and a line with another character. -/
theorem witness_LoadInterface : defaultConfig.strictSentinels = false ∧ (∀ l ∈ [lineAdd], LineOk l) ∧
    (¬∀ l ∈ ["1"], LineOk l) ∧ ¬∀ l ∈ ["0000000000000000000000000000000x"], LineOk l :=
  ⟨by decide, List.forall_mem_singleton.2 lineAdd_ok, fun h => line_too_short (List.forall_mem_singleton.1 h),
    fun h => line_with_other (List.forall_mem_singleton.1 h)⟩

/-- With `STRICT_SENTINELS`: V-E19's NOP is not canonical, V-E20's BREAK is. -/
theorem witness_StrictSentinels :
    parseLines 0 (["00000000000111111111111111111111"].map String.toList) = .ok [0x001FFFFF#32] ∧
    (load { defaultConfig with strictSentinels := true } [0x001FFFFF#32]).imem[0]? = some 0x001FFFFF#32 ∧
    (classify Rom.default 0x001FFFFF#32 = some .nop ∧ 0x001FFFFF#32 ≠ 0x00000000#32) ∧
    parseLines 0 (["11111110110111101111111111100111"].map String.toList) = .ok [0xFEDEFFE7#32] ∧
    classify Rom.default 0xFEDEFFE7#32 = some .brk := by
  exact ⟨by decide, by decide, by decide, by decide, by decide⟩

end Sys2Proof.Tests
end

section
/-! The statements of `10_state.md`: what an instruction reads and writes (R22), and what no step writes (R29). -/

namespace Sys2Proof.Machine

/-! ### The effect of an instruction as functions of the state before it -/

/-- The value a writing instruction gives its destination register (R121 to R145); 0 for an instruction that writes none. -/
def destValue (s : State) : Instr → Word
  | .add _ rn rm _ => s64 ((s.reg rn).toInt + (s.reg rm).toInt)
  | .sub _ rn rm _ => s64 ((s.reg rn).toInt - (s.reg rm).toInt)
  | .and _ rn rm _ => s.reg rn &&& s.reg rm
  | .orr _ rn rm _ => s.reg rn ||| s.reg rm
  | .eor _ rn rm _ => s.reg rn ^^^ s.reg rm
  | .lsl _ rn _ shamt => s64 (u64 (s.reg rn) * 2 ^ shamt)
  | .asr _ rn _ shamt => s64 (Int.fdiv (s.reg rn).toInt (2 ^ shamt))
  | .lsr _ rn _ shamt => s64 (Int.fdiv (u64 (s.reg rn)) (2 ^ shamt))
  | .ldur _ rn addr => loadWord (s.memRead (effectivePosition (s.reg rn) addr))
  | .addi _ rn imm => s64 ((s.reg rn).toInt + imm)
  | .subi _ rn imm => s64 ((s.reg rn).toInt - imm)
  | .movz _ shcode field => wideField shcode field
  | .movk rd shcode field => (s.reg rd &&& ~~~wideMask shcode) ||| wideField shcode field
  | .stur .. | .cbz .. | .cbnz .. | .b .. | .nop | .brk => 0#64

/-- The store after an instruction that completes: STUR alone changes it (R146). -/
def memAfter (s : State) : Instr → Memory
  | .stur rd rn addr => Memory.write s.mem (effectivePosition (s.reg rn) addr) (storeWord (s.reg rd))
  | _ => s.mem

/-- A writing instruction completes in every state, and this is all it does (R106, R26). -/
theorem exec_of_writesReg {i : Instr} {rd : Reg} (h : writesReg i = some rd) (s : State) :
    exec i s = .next ((s.setReg rd (destValue s i)).advance 1) := by
  cases i <;> cases h <;> rfl

/-- The destination register holds the destination value. -/
theorem exec_reg_dest {i : Instr} {rd : Reg} {s t : State} (hw : writesReg i = some rd) (h : exec i s = .next t) :
    t.reg rd = destValue s i := by
  rw [exec_of_writesReg hw] at h
  injection h with h
  simp [← h]

/-- No register changes but the destination register (R22). -/
theorem exec_reg_other {i : Instr} {s t : State} {r : Reg} (h : exec i s = .next t) (hr : writesReg i ≠ some r) :
    t.reg r = s.reg r := by
  rcases exec_next h with ⟨rd, v, hw, -, -, rfl⟩ | ⟨rd, rn, addr, rfl, rfl⟩ | ⟨-, -, -, rfl⟩ | ⟨rfl, rfl⟩
  · exact State.reg_setReg_other s rd r v (by rintro rfl; exact hr hw)
  · rfl
  · rfl
  · rfl

/-- An instruction that stores nowhere leaves the store as it is. -/
theorem memAfter_of_storesAt_none {i : Instr} {s : State} (h : storesAt s i = none) : memAfter s i = s.mem := by
  cases i with
  | stur => cases h
  | _ => rfl

/-- The store after an instruction that completes. -/
theorem exec_mem {i : Instr} {s t : State} (h : exec i s = .next t) : t.mem = memAfter s i := by
  rcases exec_next h with ⟨rd, v, -, hst, -, rfl⟩ | ⟨rd, rn, addr, rfl, rfl⟩ | ⟨-, hst, -, rfl⟩ | ⟨rfl, rfl⟩
  · exact (memAfter_of_storesAt_none hst).symm
  · rfl
  · exact (memAfter_of_storesAt_none hst).symm
  · rfl

/-- The index moves by the control delta; BREAK applies none (R26, R160). -/
theorem exec_idx {i : Instr} {s t : State} (h : exec i s = .next t) :
    t.idx = s.idx + if i = .brk then 0 else controlDelta s i := by
  rcases exec_next h with ⟨rd, v, hw, -, hd, rfl⟩ | ⟨rd, rn, addr, rfl, rfl⟩ | ⟨-, -, hb, rfl⟩ | ⟨rfl, rfl⟩
  · have hb : i ≠ .brk := by rintro rfl; cases hw
    simp [hb, hd]
  · rfl
  · simp [hb]
  · simp

/-- With truncating stores every instruction completes (R170): only a strict STUR stops. -/
theorem exec_completes {s : State} (h : s.cfg.sturWide = .truncate) (i : Instr) : ∃ t, exec i s = .next t := by
  cases i with
  | stur rd rn addr => simp [exec, execStur, h, storeAndStep]
  | _ => exact ⟨_, rfl⟩

/-! ### The effect depends on the listed registers and the store alone (R22) -/

section
variable {i : Instr} {s s' : State}

theorem destValue_congr (hr : ∀ r ∈ readsRegs i, s.reg r = s'.reg r) (hm : s.mem = s'.mem) :
    destValue s i = destValue s' i := by
  cases i <;> simp_all [readsRegs, destValue, State.memRead_eq]

theorem memAfter_congr (hr : ∀ r ∈ readsRegs i, s.reg r = s'.reg r) (hm : s.mem = s'.mem) :
    memAfter s i = memAfter s' i := by
  cases i <;> simp_all [readsRegs, memAfter]

theorem controlDelta_congr (hr : ∀ r ∈ readsRegs i, s.reg r = s'.reg r) : controlDelta s i = controlDelta s' i := by
  cases i <;> simp_all [readsRegs, controlDelta]

end

/-! ### Operations that keep a word and its complement apart -/

/-- Adding the same integer keeps different register values apart: `s64` loses nothing of the sum but the wrap (R8). -/
theorem s64_toInt_add_inj {x y : Word} {c : Int} (h : s64 (x.toInt + c) = s64 (y.toInt + c)) : x = y := by
  simpa [s64, BitVec.ofInt_add] using h

/-- Different bases give different effective positions (R47). -/
theorem effectivePosition_inj {x y : Word} {addr : Nat} (h : effectivePosition x addr = effectivePosition y addr) :
    x = y :=
  s64_toInt_add_inj (BitVec.eq_of_toInt_eq h)

/-- LSL's product is the bit-vector shift (R135). -/
theorem s64_u64_mul_two_pow (x : Word) (k : Nat) : s64 (u64 x * 2 ^ k) = x <<< k := by
  apply BitVec.eq_of_toNat_eq
  rw [s64, u64, BitVec.toNat_shiftLeft, Nat.shiftLeft_eq, ← BitVec.toNat_ofNat, ← BitVec.ofInt_natCast]
  push_cast
  rfl

/-- LSR's quotient is the logical shift (R137). -/
theorem s64_u64_fdiv_two_pow (x : Word) (k : Nat) : s64 (Int.fdiv (u64 x) (2 ^ k)) = x >>> k := by
  have hdiv : Int.fdiv (u64 x) (2 ^ k) = ((x >>> k).toNat : Int) := by
    rw [Int.fdiv_eq_ediv_of_nonneg _ (by positivity), BitVec.toNat_ushiftRight, Nat.shiftRight_eq_div_pow]
    push_cast
    rfl
  rw [hdiv, s64, BitVec.ofInt_natCast, BitVec.ofNat_toNat, BitVec.setWidth_eq]

/-- ASR's quotient is the arithmetic shift (R136). -/
theorem s64_fdiv_two_pow (x : Word) (k : Nat) : s64 (Int.fdiv x.toInt (2 ^ k)) = x.sshiftRight k := by
  rw [Int.fdiv_eq_ediv_of_nonneg _ (by positivity), BitVec.sshiftRight, Int.shiftRight_eq_div_pow]
  push_cast
  rfl

/-- A word is not its complement. -/
theorem ne_not_self (x : Word) : x ≠ ~~~x := by
  intro h
  have hbit := congrArg (·.getLsbD 0) h
  simp at hbit

/-- A logical shift to the left by less than 64 keeps bit 0, as bit `k`. -/
theorem shiftLeft_ne_not_shiftLeft (x : Word) {k : Nat} (hk : k < 64) : x <<< k ≠ ~~~x <<< k := by
  intro h
  have hbit := congrArg (·.getLsbD k) h
  simp [hk] at hbit

/-- A logical shift to the right by less than 64 keeps bit `k`, as bit 0. -/
theorem ushiftRight_ne_not_ushiftRight (x : Word) {k : Nat} (hk : k < 64) : x >>> k ≠ ~~~x >>> k := by
  intro h
  have hbit := congrArg (·.getLsbD 0) h
  simp [hk] at hbit

/-- An arithmetic shift keeps the sign. -/
theorem sshiftRight_ne_not_sshiftRight (x : Word) (k : Nat) : x.sshiftRight k ≠ (~~~x).sshiftRight k := by
  intro h
  have hbit := congrArg (·.msb) h
  simp [BitVec.msb_sshiftRight] at hbit

/-- MOVK keeps the bits outside its slice (R141), and there is one whatever the amount. -/
theorem movk_ne_movk_not (x : Word) {shcode field : Nat} (h : WideOk shcode field) :
    (x &&& ~~~wideMask shcode) ||| wideField shcode field ≠
      (~~~x &&& ~~~wideMask shcode) ||| wideField shcode field := by
  intro e
  obtain ⟨j, hj, hout⟩ : ∃ j, j < 64 ∧ ¬(16 * shcode ≤ j ∧ j < 16 * shcode + 16) :=
    if h0 : shcode = 0 then ⟨16, by omega, by omega⟩ else ⟨0, by omega, by omega⟩
  have hbit := congrArg (·.getLsbD j) e
  simp only [BitVec.getLsbD_or, BitVec.getLsbD_and, BitVec.getLsbD_not, getLsbD_wideMask h.1, getLsbD_wideField h,
    hj, hout] at hbit
  simp at hbit

/-- MOVK writes the bits of its slice (R141): the lowest of them changes where it was the complement of the field's. -/
theorem movk_not_wideField_ne {shcode field : Nat} (h : WideOk shcode field) :
    (~~~wideField shcode field &&& ~~~wideMask shcode) ||| wideField shcode field ≠ ~~~wideField shcode field := by
  intro e
  have hj : 16 * shcode < 64 := by have := h.1; omega
  have hmask : (wideMask shcode).getLsbD (16 * shcode) = true := by simp [getLsbD_wideMask h.1]
  have hbit := congrArg (·.getLsbD (16 * shcode)) e
  simp only [BitVec.getLsbD_or, BitVec.getLsbD_and, BitVec.getLsbD_not, hmask, hj] at hbit
  simp at hbit

/-! ### Each register listed as read shows (R22) -/

/-- The effects of the instruction in the two states differ: in the destination value, the store or the control delta. -/
def EffectsDiffer (i : Instr) (s s' : State) : Prop :=
  (∃ rd, writesReg i = some rd ∧ destValue s i ≠ destValue s' i) ∨ memAfter s i ≠ memAfter s' i ∨
    controlDelta s i ≠ controlDelta s' i

/-- Where the effects differ, the states after them do. -/
theorem EffectsDiffer.next {i : Instr} {s s' t t' : State} (hd : EffectsDiffer i s s') (hidx : s.idx = s'.idx)
    (h : exec i s = .next t) (h' : exec i s' = .next t') :
    (∃ q, writesReg i = some q ∧ t.reg q ≠ t'.reg q) ∨ t.mem ≠ t'.mem ∨ t.idx ≠ t'.idx := by
  rcases hd with ⟨rd, hw, hv⟩ | hm | hc
  · exact .inl ⟨rd, hw, by rwa [exec_reg_dest hw h, exec_reg_dest hw h']⟩
  · exact .inr (.inl (by rwa [exec_mem h, exec_mem h']))
  · have hb : i ≠ .brk := by rintro rfl; exact hc rfl
    refine .inr (.inr ?_)
    rw [exec_idx h, exec_idx h', hidx]
    simpa [hb] using hc

/-- What every register holds in the state an instruction is tried in: 0, but all ones for AND, which a 0 in its other
source would silence. -/
def backgroundValue : Instr → Word
  | .and .. => BitVec.allOnes 64
  | _ => 0#64

/-- The store an instruction is tried with: for LDUR one entry, at the position it loads from when its base is 0. -/
def backgroundMem : Instr → Memory
  | .ldur _ _ addr => [(effectivePosition 0#64 addr, 1#32)]
  | _ => []

/-- The state an instruction is tried in. -/
def background (i : Instr) : State :=
  { State.reset with regs := Vector.replicate 32 (backgroundValue i), mem := backgroundMem i }

/-- The same with every bit of one register inverted. -/
def flipped (i : Instr) (r : Reg) : State := (background i).setReg r (~~~backgroundValue i)

@[simp] theorem background_reg (i : Instr) (q : Reg) : (background i).reg q = backgroundValue i := by
  simp [background, State.reg]

@[simp] theorem background_mem (i : Instr) : (background i).mem = backgroundMem i := rfl

@[simp] theorem flipped_reg_same (i : Instr) (r : Reg) : (flipped i r).reg r = ~~~backgroundValue i :=
  State.reg_setReg_same ..

theorem flipped_reg_other (i : Instr) {r q : Reg} (h : q ≠ r) : (flipped i r).reg q = backgroundValue i := by
  rw [flipped, State.reg_setReg_other _ _ _ _ h, background_reg]

@[simp] theorem flipped_mem (i : Instr) (r : Reg) : (flipped i r).mem = backgroundMem i := rfl

/-- LDUR loads the one entry of the store from its own position, and 0 from another. -/
theorem ldur_effectsDiffer (rd rn : Reg) (addr : Nat) :
    EffectsDiffer (.ldur rd rn addr) (background (.ldur rd rn addr)) (flipped (.ldur rd rn addr) rn) := by
  refine .inl ⟨rd, rfl, ?_⟩
  have hpos : effectivePosition 0#64 addr ≠ effectivePosition (~~~0#64) addr :=
    fun h => ne_not_self _ (effectivePosition_inj h)
  simp only [destValue, State.memRead_eq, background_reg, flipped_reg_same, background_mem, flipped_mem, backgroundMem,
    backgroundValue, Memory.read, Memory.entry, hpos]
  decide

/-- STUR stores at another position for another base, and another word for another source. -/
theorem stur_effectsDiffer {rd rn r : Reg} (addr : Nat) (hne : rd ≠ rn) (hr : r = rn ∨ r = rd) :
    EffectsDiffer (.stur rd rn addr) (background (.stur rd rn addr)) (flipped (.stur rd rn addr) r) := by
  refine .inr (.inl ?_)
  rcases hr with rfl | rfl
  · have hpos : effectivePosition 0#64 addr ≠ effectivePosition (~~~0#64) addr :=
      fun h => ne_not_self _ (effectivePosition_inj h)
    simpa only [memAfter, background_reg, flipped_reg_same, flipped_reg_other _ hne, background_mem, flipped_mem,
      backgroundMem, backgroundValue, Memory.write, ne_eq, List.cons.injEq, Prod.mk.injEq, and_true] using hpos
  · have hword : storeWord 0#64 ≠ storeWord (~~~0#64) := by decide
    simpa only [memAfter, background_reg, flipped_reg_same, flipped_reg_other _ hne.symm, background_mem, flipped_mem,
      backgroundMem, backgroundValue, Memory.write, ne_eq, List.cons.injEq, Prod.mk.injEq, true_and, and_true] using hword

/-- Inverting any register listed as read changes the effect. -/
theorem effectsDiffer_flipped {i : Instr} {r : Reg} (hwf : i.WellFormed) (ha : operandsApart i = true)
    (hr : r ∈ readsRegs i) : EffectsDiffer i (background i) (flipped i r) := by
  cases i with
  | add rd rn rm | sub rd rn rm | and rd rn rm | orr rd rn rm | eor rd rn rm =>
    refine .inl ⟨rd, rfl, ?_⟩
    have hne : rn ≠ rm := by simp_all [operandsApart]
    rcases List.mem_pair.1 hr with rfl | rfl
    · simp only [destValue, background_reg, flipped_reg_same, flipped_reg_other _ hne.symm, backgroundValue]
      decide
    · simp only [destValue, background_reg, flipped_reg_same, flipped_reg_other _ hne, backgroundValue]
      decide
  | lsl rd rn rm shamt =>
    obtain rfl := List.mem_singleton.1 hr
    refine .inl ⟨rd, rfl, ?_⟩
    simpa only [destValue, background_reg, flipped_reg_same, s64_u64_mul_two_pow] using
      shiftLeft_ne_not_shiftLeft _ (of_decide_eq_true hwf)
  | lsr rd rn rm shamt =>
    obtain rfl := List.mem_singleton.1 hr
    refine .inl ⟨rd, rfl, ?_⟩
    simpa only [destValue, background_reg, flipped_reg_same, s64_u64_fdiv_two_pow] using
      ushiftRight_ne_not_ushiftRight _ (of_decide_eq_true hwf)
  | asr rd rn rm shamt =>
    obtain rfl := List.mem_singleton.1 hr
    refine .inl ⟨rd, rfl, ?_⟩
    simpa only [destValue, background_reg, flipped_reg_same, s64_fdiv_two_pow] using
      sshiftRight_ne_not_sshiftRight _ shamt
  | addi rd rn imm | subi rd rn imm =>
    obtain rfl := List.mem_singleton.1 hr
    refine .inl ⟨rd, rfl, fun h => ?_⟩
    simp only [destValue, background_reg, flipped_reg_same, Int.sub_eq_add_neg] at h
    exact ne_not_self _ (s64_toInt_add_inj h)
  | movk rd shcode field =>
    obtain rfl := List.mem_singleton.1 hr
    refine .inl ⟨_, rfl, ?_⟩
    simpa only [destValue, background_reg, flipped_reg_same] using movk_ne_movk_not _ (of_decide_eq_true hwf)
  | ldur rd rn addr =>
    obtain rfl := List.mem_singleton.1 hr
    exact ldur_effectsDiffer rd _ addr
  | stur rd rn addr => exact stur_effectsDiffer addr (bne_iff_ne.1 ha) (List.mem_pair.1 hr)
  | cbz rd off | cbnz rd off =>
    obtain rfl := List.mem_singleton.1 hr
    have hoff : off ≠ 1 := bne_iff_ne.1 ha
    refine .inr (.inr ?_)
    simp [controlDelta, backgroundValue, hoff, hoff.symm]
  | movz | b | nop | brk => cases hr

/-- For each register listed as read, two states that differ in it alone and in which the instruction's outcome differs. -/
theorem read_register_shows {i : Instr} {r : Reg} (hwf : i.WellFormed) (ha : operandsApart i = true)
    (hr : r ∈ readsRegs i) : ∃ s s' t t' : State, (∀ q, q ≠ r → s.reg q = s'.reg q) ∧ s.mem = s'.mem ∧ s.idx = s'.idx ∧
      s.cfg = s'.cfg ∧ exec i s = .next t ∧ exec i s' = .next t' ∧
      ((∃ q, writesReg i = some q ∧ t.reg q ≠ t'.reg q) ∨ t.mem ≠ t'.mem ∨ t.idx ≠ t'.idx) := by
  obtain ⟨t, ht⟩ := exec_completes (s := background i) rfl i
  obtain ⟨t', ht'⟩ := exec_completes (s := flipped i r) rfl i
  refine ⟨background i, flipped i r, t, t', fun q hq => ?_, rfl, rfl, rfl, ht, ht', ?_⟩
  · rw [background_reg, flipped_reg_other i hq]
  · exact (effectsDiffer_flipped hwf ha hr).next rfl ht ht'

/-! ### The register listed as written shows (R22) -/

/-- Of the writing instructions MOVK alone reads its destination, the operands being apart. -/
theorem dest_not_read {i : Instr} {rd : Reg} (hw : writesReg i = some rd) (ha : operandsApart i = true) :
    (∃ shcode field, i = .movk rd shcode field) ∨ rd ∉ readsRegs i := by
  cases i <;> cases hw <;> simp_all [operandsApart, readsRegs]

/-- The register listed as written changes in some state: MOVK's where it held the complement of the field, and that of
every other instruction where it held the complement of the value it is about to get. -/
theorem written_register_shows {i : Instr} {rd : Reg} (hwf : i.WellFormed) (ha : operandsApart i = true)
    (hw : writesReg i = some rd) : ∃ s t : State, exec i s = .next t ∧ t.reg rd ≠ s.reg rd := by
  rcases dest_not_read hw ha with ⟨shcode, field, rfl⟩ | hrd
  · refine ⟨State.reset.setReg rd (~~~wideField shcode field), _, exec_of_writesReg rfl _, ?_⟩
    simpa only [State.reg_advance, State.reg_setReg_same, destValue] using movk_not_wideField_ne (of_decide_eq_true hwf)
  · have hval (v : Word) : destValue (State.reset.setReg rd v) i = destValue State.reset i :=
      destValue_congr (fun r hr => State.reg_setReg_other _ _ _ _ fun e => hrd (e ▸ hr)) rfl
    refine ⟨State.reset.setReg rd (~~~destValue State.reset i), _, exec_of_writesReg hw _, ?_⟩
    rw [State.reg_advance, State.reg_setReg_same, State.reg_setReg_same, hval]
    exact ne_not_self _

/-! ### The statements -/

/-- Settles O33: the effect is a function of the listed registers and the store (`destValue`, `memAfter`, `controlDelta`),
and inverting a listed register, or starting from the complement of the value to be written, makes it show. -/
theorem registersReadAndWrittenAreThoseListed : Obligations.RegistersReadAndWrittenAreThoseListed := by
  refine ⟨fun i s s' t t' hr hm h h' => ⟨fun rd hw => ?_, ?_, ?_⟩, fun i s t r h hr => exec_reg_other h hr,
    fun i hwf ha => ⟨fun r hr => read_register_shows hwf ha hr, fun rd hw => written_register_shows hwf ha hw⟩⟩
  · rw [exec_reg_dest hw h, exec_reg_dest hw h', destValue_congr hr hm]
  · rw [exec_mem h, exec_mem h', memAfter_congr hr hm]
  · rw [exec_idx h, exec_idx h', controlDelta_congr hr]
    omega

/-- Settles O47: every step keeps the parameters and the instruction store (`step_config`), so every run does. -/
theorem noStepWritesProgramOrParameters : Obligations.NoStepWritesProgramOrParameters := by
  intro k s t h
  refine run_keeps (P := fun u => u.cfg = s.cfg ∧ u.imem = s.imem) (fun u v ⟨hcfg, himem⟩ huv => ?_) ⟨rfl, rfl⟩ h
  obtain ⟨hcfg', himem'⟩ := step_config huv
  exact ⟨hcfg'.trans hcfg, himem'.trans himem⟩

end Sys2Proof.Machine
end

section
/-! The statements of `20_memory.md`: what a write to the store makes of its entries (R42), and what a read of it gives
(R41). -/

namespace Sys2Proof.Machine

/-! ### What a read gives (R41) -/

/-- An entry of value `v` reads as `v` (R41). -/
theorem Memory.read_of_entry_eq_some {m : Memory} {p : Int} {v : Data} (h : Memory.entry m p = some v) :
    Memory.read m p = v := by
  rw [Memory.read, h, Option.getD_some]

/-- A position with no entry reads as 0 (R41). -/
theorem Memory.read_of_entry_eq_none {m : Memory} {p : Int} (h : Memory.entry m p = none) :
    Memory.read m p = 0#32 := by
  rw [Memory.read, h, Option.getD_none]

/-! ### What a write makes of the entries (R42) -/

/-- The written position holds the written value. -/
@[simp] theorem Memory.entry_write_same (m : Memory) (p : Int) (v : Data) :
    Memory.entry (Memory.write m p v) p = some v := by
  rw [Memory.entry_write, if_pos rfl]

/-- A write leaves the entry of every other position alone. -/
theorem Memory.entry_write_other (m : Memory) {p q : Int} (v : Data) (h : q ≠ p) :
    Memory.entry (Memory.write m p v) q = Memory.entry m q := by
  rw [Memory.entry_write, if_neg h.symm]

/-- The written value is read back. -/
@[simp] theorem Memory.read_write_same (m : Memory) (p : Int) (v : Data) : Memory.read (Memory.write m p v) p = v :=
  Memory.read_of_entry_eq_some (Memory.entry_write_same m p v)

/-! ### The statements -/

/-- Settles O35: a write changes the entry at its position and no other (`Memory.entry_write`), and a read gives the
entry. -/
theorem writeThenReadGivesTheValue : Obligations.WriteThenReadGivesTheValue := fun m p v =>
  ⟨Memory.entry_write_same m p v, Memory.read_write_same m p v, fun _ hq => Memory.entry_write_other m v hq⟩

/-- Settles O37: in a canonical store the entries are the listed pairs (`Memory.entry_eq_some_iff`), and a position that is
not listed has none. -/
theorem absentPositionReadsZero : Obligations.AbsentPositionReadsZero := by
  refine fun m p hwf => ⟨fun v hv => ?_, fun habsent => ?_⟩
  · exact Memory.read_of_entry_eq_some ((Memory.entry_eq_some_iff hwf p v).2 hv)
  · have hne : ∀ c ∈ m, c.1 ≠ p := fun c hc e => habsent c.2 (e ▸ hc)
    exact Memory.read_of_entry_eq_none (Memory.entry_eq_none hne)

end Sys2Proof.Machine
end

section
/-! Which mnemonic a word is classified as (R71, R73): the leading bits of a word of a row, and why the classification order
decides nothing when the ROM is prefix-free. Every statement that says `RowDecodes` needs these. -/

namespace Sys2Proof

/-! ### Leading bits -/

/-- Of two runs of leading bits the shorter is the front of the longer (R61). -/
theorem leading_shiftRight {m n : Nat} (hmn : m ≤ n) (hn : n ≤ 32) (w : InstrWord) :
    leading n w >>> (n - m) = leading m w := by
  rw [leading, leading, ← Nat.shiftRight_add]
  congr 1
  omega

/-- A mask that covers the leading bits keeps them. -/
theorem leading_and_mask {n : Nat} (hn : n ≤ 32) {mask : InstrWord} (hmask : leading n mask = 2 ^ n - 1)
    (w : InstrWord) : leading n (w &&& mask) = leading n w := by
  have hlt : leading n w < 2 ^ n := by
    rw [leading_eq, Nat.div_lt_iff_lt_mul (Nat.two_pow_pos _), ← Nat.pow_add, Nat.add_sub_cancel' hn]
    exact w.isLt
  calc leading n (w &&& mask) = leading n w &&& leading n mask := by
        rw [leading, BitVec.toNat_and, Nat.shiftRight_and_distrib]; rfl
    _ = leading n w := by rw [hmask, Nat.and_two_pow_sub_one_of_lt_two_pow hlt]

/-! ### The first match is the only match (R73) -/

/-- No mnemonic is looked up by more bits than a word has (R61). -/
theorem Op.bits_le (o : Op) : o.bits ≤ 32 := by cases o <;> decide

/-- Every mnemonic stands in the classification order (R71). -/
theorem Op.mem_classOrder (o : Op) : o ∈ classOrder := by cases o <;> decide

/-- Two mnemonics that select one word have patterns of which one is a prefix of the other. -/
theorem Rom.clash_of_selects {rom : Rom} {w : InstrWord} {o p : Op} (ho : rom.selects w o = true)
    (hp : rom.selects w p = true) : rom.clash o p = true := by
  have ho : leading o.bits w = rom.pattern o := beq_iff_eq.1 ho
  have hp : leading p.bits w = rom.pattern p := beq_iff_eq.1 hp
  unfold Rom.clash
  split
  case isTrue hle => rw [beq_iff_eq, ← ho, ← hp, leading_shiftRight hle p.bits_le]
  case isFalse hlt => rw [beq_iff_eq, ← ho, ← hp, leading_shiftRight (by omega) o.bits_le]

/-- In a prefix-free ROM only a mnemonic itself clashes with it. -/
theorem Rom.PrefixFree.eq_of_clash {rom : Rom} (h : rom.PrefixFree) {o p : Op} (hc : rom.clash o p = true) : o = p := by
  have hop := List.all_eq_true.1 (List.all_eq_true.1 h o o.mem_classOrder) p p.mem_classOrder
  simpa [hc] using hop

/-- With a prefix-free ROM a word is classified as whichever mnemonic selects it, wherever that stands in the order (R73). -/
theorem classify_of_selects {rom : Rom} (h : rom.PrefixFree) {w : InstrWord} {o : Op} (ho : rom.selects w o = true) :
    classify rom w = some o := by
  cases hc : classify rom w with
  | none => exact absurd ho (List.find?_eq_none.1 hc o o.mem_classOrder)
  | some p => rw [h.eq_of_clash (Rom.clash_of_selects (List.find?_some hc) ho)]

/-- The default ROM is prefix-free (R72, R73). -/
theorem Rom.default_prefixFree : Rom.default.PrefixFree := by decide

end Sys2Proof

namespace Sys2Proof.Machine

/-- A row whose mask covers its mnemonic's leading bits and whose match carries its pattern decodes to that mnemonic. -/
theorem rowDecodes {mask value : InstrWord} {o : Op} (hmask : leading o.bits mask = 2 ^ o.bits - 1)
    (hvalue : Rom.default.selects value o = true) : RowDecodes mask value o := by
  rintro w rfl
  have hw : Rom.default.selects w o = true := by
    rwa [Rom.selects, leading_and_mask o.bits_le hmask] at hvalue
  exact (decode_eq_instr_iff ..).2 ⟨o, classify_of_selects Rom.default_prefixFree hw, rfl⟩

end Sys2Proof.Machine
end

section
/-! The statements of `46_branch.md`: the control delta of every instruction (R150), and B (R153). -/

namespace Sys2Proof.Machine

/-- An instruction that only moves the index leaves everything else as it was (R150). -/
theorem frame_advance (s : State) (d : Int) : Frame none none s (s.advance d) where
  regs _ _ := rfl
  store _ _ := rfl
  status := rfl
  cfg := rfl
  imem := rfl
  cycle := rfl
  trace := rfl

/-- B completes in every state, and moving the index by its offset is all it does (R153). -/
theorem exec_b (off : Int) (s : State) : exec (.b off) s = .next (s.advance off) := rfl

/-! ### The statements -/

/-- Settles O34: what `exec_idx` says of every instruction, for BREAK and for the eighteen others. -/
theorem indexMovesByTheControlDelta : Obligations.IndexMovesByTheControlDelta := by
  refine fun i s t h => ⟨fun hb => ?_, fun hb => ?_⟩
  · rw [exec_idx h, if_neg hb]
  · rw [exec_idx h, if_pos hb, Int.add_zero]

/-- Settles O26: B's row carries its fixed pattern (`rowDecodes`), and its effect is the one index update (`exec_b`). -/
theorem branchMovesTheIndexByItsOffset : Obligations.BranchMovesTheIndexByItsOffset := by
  refine ⟨rowDecodes (by decide) (by decide), fun s off => ⟨s.advance off, exec_b off s, ?_, frame_advance s off⟩⟩
  exact State.advance_idx s off

end Sys2Proof.Machine
end

section
/-! The statement of `60_exceptions.md` on the index outside the program (R172, R176): what it makes of a running block,
and that an executed cycle never raises it. -/

namespace Sys2Proof.Machine

/-- An executed cycle leaves the block RUNNING, halts it, or trips the runaway guard: it raises neither of the errors of
the bounds check and the decode (R107 steps 4 to 9). -/
theorem executeCycle_status {s t : State} {w : InstrWord} {i : Instr} (h : Executes s w i)
    (ht : executeCycle s w i = .next t) :
    t.status = .halted ∨ t.status = .running ∨ t.status = .fault (.runawayExecution (s.cycle + 1)) := by
  obtain ⟨u, -, ⟨-, rfl, rfl⟩ | ⟨-, hu, -, rfl⟩ | ⟨-, -, m, -, -, rfl⟩⟩ := executeCycle_next h ht
  · exact .inl rfl
  · exact .inr (.inl hu)
  · exact .inr (.inr rfl)

/-- A step of a running block that ends in ControlFlowOutOfRange fetched nothing, and records the index it had (R172). -/
theorem step_raises_outOfRange {s t : State} {k : Int} (hs : s.status = .running) (h : step s = .next t)
    (ht : t.status = .fault (.controlFlowOutOfRange k)) : k = s.idx ∧ s.fetch = none := by
  rcases step_cases h with ⟨hstopped, -⟩ | ⟨-, hf, rfl⟩ | ⟨w, -, -, -, rfl⟩ | ⟨w, i, he, hc⟩
  · exact absurd hs hstopped
  · have hk : s.idx = k := by simpa using ht
    exact ⟨hk.symm, hf⟩
  · cases ht
  · have hends := executeCycle_status he hc
    simp [ht] at hends

/-! ### The statement -/

/-- Settles O40: the fetch answers nothing exactly when the index is outside 0..N-1 (`fetch_eq_none_iff`), and a running
block raises the error exactly when the fetch answers nothing (`step_outOfRange`, `step_raises_outOfRange`). -/
theorem indexOutOfRangeIsRecorded : Obligations.IndexOutOfRangeIsRecorded := by
  refine ⟨fun s hs hout => step_outOfRange hs ((fetch_eq_none_iff s).2 hout), fun s t k hs h ht => ?_⟩
  obtain ⟨hk, hf⟩ := step_raises_outOfRange hs h ht
  exact ⟨hk, (fetch_eq_none_iff s).1 hf⟩

end Sys2Proof.Machine
end

section
/-! The statements of `30_encoding.md`: the sign extension unit (R66), the bits a format does not read (R75), the round trip
of encoder and decoder (R81), and the rows and ranges of the default ROM (R73, R74). -/

namespace Sys2Proof.Machine

/-! ### The sign extension unit (R66) -/

/-- A signed field in range, packed and sign-extended again. -/
theorem sext_ofInt {n : Nat} (hn : 0 < n) {k : Int} (h1 : -2 ^ (n - 1) ≤ k) (h2 : k < 2 ^ (n - 1)) :
    sext (BitVec.ofInt n k) = k := by
  rw [sext_eq_toInt, toInt_ofInt_of_range hn h1 h2]

/-- The two's complement value by the half of the range the unsigned value lies in. -/
theorem sext_eq_cond {n : Nat} (hn : 0 < n) (v : BitVec n) :
    sext v = if v.toNat < 2 ^ (n - 1) then (v.toNat : Int) else (v.toNat : Int) - 2 ^ n := by
  have hhalf : 2 * v.toNat < 2 ^ n ↔ v.toNat < 2 ^ (n - 1) := by
    obtain ⟨m, rfl⟩ : ∃ m, n = m + 1 := ⟨n - 1, by omega⟩
    rw [Nat.add_sub_cancel, Nat.pow_succ]
    omega
  rw [sext_eq_toInt, BitVec.toInt_eq_toNat_cond]
  simp only [hhalf]
  norm_cast

/-- Settles O4: the sign extension unit is `BitVec.toInt` (`sext_eq_toInt`). -/
theorem signExtensionIsTwosComplement : Obligations.SignExtensionIsTwosComplement := by
  refine ⟨fun n v hn => sext_eq_cond hn v, fun n k hn h1 h2 => sext_ofInt hn h1 h2,
    fun w => ⟨rfl, rfl, rfl, (sext_eq_toInt w).symm⟩, ?_⟩
  decide

/-! ### The fields of a packed word (R63 to R69) -/

section
variable {opc11 : BitVec 11} {opc10 : BitVec 10} {opc9 : BitVec 9} {opc8 : BitVec 8} {rd rn rm : Reg}

/-- A register field that holds the index of a register names it (R20). -/
theorem regOf_eq {v : BitVec 5} {r : Reg} (h : v.toNat = r.val) : regOf v = r := by
  have hv : v = regBits r := BitVec.eq_of_toNat_eq (by rw [h, toNat_regBits])
  rw [hv, regOf_regBits]

theorem fields_packR {shamt : Nat} (h : ShamtOk shamt) :
    fieldRd (packR opc11 rm shamt rn rd) = rd ∧ fieldRn (packR opc11 rm shamt rn rd) = rn ∧
      fieldRm (packR opc11 rm shamt rn rd) = rm ∧ fieldShamt (packR opc11 rm shamt rn rd) = shamt := by
  have hrd := rd.isLt; have hrn := rn.isLt; have hrm := rm.isLt
  refine ⟨regOf_eq ?_, regOf_eq ?_, regOf_eq ?_, ?_⟩
  all_goals simp only [fieldShamt, toNat_slice, toNat_packR]; omega

theorem fields_packD {addr : Nat} (h : AddrOk addr) :
    fieldRd (packD opc11 addr rn rd) = rd ∧ fieldRn (packD opc11 addr rn rd) = rn ∧
      fieldAddr (packD opc11 addr rn rd) = addr := by
  have hrd := rd.isLt; have hrn := rn.isLt
  refine ⟨regOf_eq ?_, regOf_eq ?_, ?_⟩
  all_goals simp only [fieldAddr, toNat_slice, toNat_packD]; omega

theorem fields_packI {imm : Int} (h : ImmOk imm) :
    fieldRd (packI opc10 imm rn rd) = rd ∧ fieldRn (packI opc10 imm rn rd) = rn ∧
      fieldImm (packI opc10 imm rn rd) = imm := by
  have hrd := rd.isLt; have hrn := rn.isLt; have himm := (BitVec.ofInt 12 imm).isLt
  refine ⟨regOf_eq ?_, regOf_eq ?_, ?_⟩
  · rw [toNat_slice, toNat_packI]; omega
  · rw [toNat_slice, toNat_packI]; omega
  · have hs : slice (packI opc10 imm rn rd) 21 10 = BitVec.ofInt 12 imm := by
      apply BitVec.eq_of_toNat_eq
      rw [toNat_slice, toNat_packI]; omega
    rw [fieldImm, hs]
    exact sext_ofInt (by decide) h.1 (Int.lt_add_one_of_le h.2)

theorem fields_packIM {shcode field : Nat} (h : WideOk shcode field) :
    fieldRd (packIM opc9 shcode field rd) = rd ∧ fieldShcode (packIM opc9 shcode field rd) = shcode ∧
      fieldWide (packIM opc9 shcode field rd) = field := by
  have hrd := rd.isLt; obtain ⟨hs, hf⟩ := h
  refine ⟨regOf_eq ?_, ?_, ?_⟩
  all_goals simp only [fieldShcode, fieldWide, toNat_slice, toNat_packIM]; omega

theorem fields_packCB {off : Int} (h : OffCBOk off) :
    fieldRd (packCB opc8 off rd) = rd ∧ fieldOffCB (packCB opc8 off rd) = off := by
  have hrd := rd.isLt; have hoff := (BitVec.ofInt 19 off).isLt
  refine ⟨regOf_eq ?_, ?_⟩
  · rw [toNat_slice, toNat_packCB]; omega
  · have hs : slice (packCB opc8 off rd) 23 5 = BitVec.ofInt 19 off := by
      apply BitVec.eq_of_toNat_eq
      rw [toNat_slice, toNat_packCB]; omega
    rw [fieldOffCB, hs]
    exact sext_ofInt (by decide) h.1 (Int.lt_add_one_of_le h.2)

theorem field_packB {off : Int} (h : OffBOk off) : fieldOffB (packB off) = off := by
  have hoff := (BitVec.ofInt 26 off).isLt
  have hs : slice (packB off) 25 0 = BitVec.ofInt 26 off := by
    apply BitVec.eq_of_toNat_eq
    rw [toNat_slice, toNat_packB]; omega
  rw [fieldOffB, hs]
  exact sext_ofInt (by decide) h.1 (Int.lt_add_one_of_le h.2)

end

/-! ### The round trip of the canonical words (R81) -/

/-- The encoder puts every field of a well-formed instruction where the decoder reads it. -/
theorem unpack_encode (rom : Rom) {i : Instr} (h : i.WellFormed) : unpack i.op (encode rom i) = i := by
  cases i with
  | add | sub | and | orr | eor | lsl | asr | lsr =>
    simp only [Instr.op, encode, unpack, fields_packR (of_decide_eq_true h)]
  | ldur | stur => simp only [Instr.op, encode, unpack, fields_packD (of_decide_eq_true h)]
  | addi | subi => simp only [Instr.op, encode, unpack, fields_packI (of_decide_eq_true h)]
  | movz | movk => simp only [Instr.op, encode, unpack, fields_packIM (of_decide_eq_true h)]
  | cbz | cbnz => simp only [Instr.op, encode, unpack, fields_packCB (of_decide_eq_true h)]
  | b => simp only [Instr.op, encode, unpack, field_packB (of_decide_eq_true h)]
  | nop | brk => rfl

/-- The encoded word carries the instruction's own pattern, with any ROM and any field values. -/
theorem selects_encode (rom : Rom) (i : Instr) : rom.selects (encode rom i) i.op = true := by
  cases i with
  | add => exact Laws.EncodeOpcode.add ..
  | sub => exact Laws.EncodeOpcode.sub ..
  | and => exact Laws.EncodeOpcode.and ..
  | orr => exact Laws.EncodeOpcode.orr ..
  | eor => exact Laws.EncodeOpcode.eor ..
  | lsl => exact Laws.EncodeOpcode.lsl ..
  | asr => exact Laws.EncodeOpcode.asr ..
  | lsr => exact Laws.EncodeOpcode.lsr ..
  | ldur => exact Laws.EncodeOpcode.ldur ..
  | stur => exact Laws.EncodeOpcode.stur ..
  | addi => exact Laws.EncodeOpcode.addi ..
  | subi => exact Laws.EncodeOpcode.subi ..
  | movz => exact Laws.EncodeOpcode.movz ..
  | movk => exact Laws.EncodeOpcode.movk ..
  | cbz => exact Laws.EncodeOpcode.cbz ..
  | cbnz => exact Laws.EncodeOpcode.cbnz ..
  | b => exact Laws.EncodeOpcode.b ..
  | nop => exact Laws.EncodeOpcode.nop ..
  | brk => exact Laws.EncodeOpcode.brk ..

/-- With a prefix-free ROM the encoded word is classified as the instruction's mnemonic. -/
theorem classify_encode {rom : Rom} (h : rom.PrefixFree) (i : Instr) : classify rom (encode rom i) = some i.op :=
  classify_of_selects h (selects_encode rom i)

/-- Encoding then decoding is the identity. -/
theorem decode_encode {rom : Rom} (h : rom.PrefixFree) {i : Instr} (hwf : i.WellFormed) :
    decode rom (encode rom i) = .instr i :=
  (decode_eq_instr_iff ..).2 ⟨i.op, classify_encode h i, unpack_encode rom hwf⟩

/-! ### The bits a format does not read (R75) -/

/-- Words that differ only in the bits that the mnemonic's format does not read. -/
def SameReadBits (o : Op) (w v : InstrWord) : Prop := (w ^^^ v) &&& ~~~unreadBits o = 0#32

/-- The read bits of two such words are the same. -/
theorem SameReadBits.and_eq {o : Op} {w v : InstrWord} (h : SameReadBits o w v) :
    w &&& ~~~unreadBits o = v &&& ~~~unreadBits o := by
  have hdistrib : (w ^^^ v) &&& ~~~unreadBits o = (w &&& ~~~unreadBits o) ^^^ (v &&& ~~~unreadBits o) :=
    BitVec.eq_of_toNat_eq (Nat.and_xor_distrib_right ..)
  exact BitVec.xor_eq_zero_iff.1 (hdistrib.symm.trans h)

/-- Words whose first 11 bits are the same are classified alike: no pattern is longer (R61). -/
theorem classify_congr (rom : Rom) {w v : InstrWord} (h : leading 11 w = leading 11 v) :
    classify rom w = classify rom v := by
  have hselects : rom.selects w = rom.selects v := by
    funext o
    have hbits : o.bits ≤ 11 := by cases o <;> decide
    rw [Rom.selects, Rom.selects, ← leading_shiftRight hbits (by decide) w, h, leading_shiftRight hbits (by decide)]
  rw [classify, classify, hselects]

/-- Every format reads the first 11 bits. -/
theorem SameReadBits.leading_eq {o : Op} {w v : InstrWord} (h : SameReadBits o w v) : leading 11 w = leading 11 v := by
  have hmask : leading 11 (~~~unreadBits o) = 2 ^ 11 - 1 := by cases o <;> decide
  rw [← leading_and_mask (by decide) hmask w, h.and_eq, leading_and_mask (by decide) hmask v]

/-- A mask that covers a slice keeps it. -/
theorem slice_and_mask {hi lo : Nat} {mask : InstrWord} (hmask : slice mask hi lo = BitVec.allOnes _) (w : InstrWord) :
    slice (w &&& mask) hi lo = slice w hi lo := by
  rw [slice, BitVec.extractLsb_and, ← slice, ← slice, hmask, BitVec.and_allOnes]

/-- Every slice that the format reads is the same. -/
theorem SameReadBits.slice_eq {o : Op} {w v : InstrWord} {hi lo : Nat} (h : SameReadBits o w v)
    (hmask : slice (~~~unreadBits o) hi lo = BitVec.allOnes _) : slice w hi lo = slice v hi lo := by
  rw [← slice_and_mask hmask w, h.and_eq, slice_and_mask hmask v]

/-- A format that reads every bit tells different words apart. -/
theorem SameReadBits.eq {o : Op} {w v : InstrWord} (h : SameReadBits o w v) (ho : unreadBits o = 0#32) : w = v := by
  have hall : ~~~unreadBits o = BitVec.allOnes 32 := by rw [ho]; rfl
  rw [← BitVec.and_allOnes (x := w), ← hall, h.and_eq, hall, BitVec.and_allOnes]

/-- The fields of the format are the same. -/
theorem SameReadBits.unpack_eq {o : Op} {w v : InstrWord} (h : SameReadBits o w v) : unpack o w = unpack o v := by
  cases o with
  | ldur | stur =>
    simp only [unpack, fieldRd, fieldRn, fieldAddr, h.slice_eq (hi := 4) (lo := 0) (by decide),
      h.slice_eq (hi := 9) (lo := 5) (by decide), h.slice_eq (hi := 20) (lo := 12) (by decide)]
  | nop | brk => rfl
  | _ => rw [h.eq rfl]

/-- A classified word decodes to the fields of its mnemonic's format. -/
theorem decode_of_classify {rom : Rom} {w : InstrWord} {o : Op} (h : classify rom w = some o) :
    decode rom w = .instr (unpack o w) :=
  (decode_eq_instr_iff ..).2 ⟨o, h, rfl⟩

/-- The word decodes alike, with any ROM. -/
theorem SameReadBits.decode_eq {rom : Rom} {o : Op} {w v : InstrWord} (h : SameReadBits o w v)
    (hw : classify rom w = some o) : decode rom v = decode rom w := by
  rw [decode_of_classify hw, decode_of_classify ((classify_congr rom h.leading_eq).symm.trans hw), h.unpack_eq]

/-- Settles O1: the canonical word decodes to the instruction (`decode_encode`), and the unread bits change nothing
(`SameReadBits.decode_eq`). -/
theorem decodeRecoversEveryEncodedInstruction : Obligations.DecodeRecoversEveryEncodedInstruction := by
  intro rom i w hrom hwf hw
  have hsame : SameReadBits i.op (encode rom i) w := by rwa [SameReadBits, BitVec.xor_comm]
  rw [hsame.decode_eq (classify_encode hrom i), decode_encode hrom hwf]

/-- Settles O5: the unread bits (`SameReadBits.decode_eq`); and no meaning takes `shamt` of the five register operations or
`rm` of the shifts. -/
theorem unusedBitsChangeNothing : Obligations.UnusedBitsChangeNothing := by
  refine ⟨fun rom w v o hw h => SameReadBits.decode_eq h hw, fun s rd rn rm a b => ?_, fun s rd rn a b shamt => ?_⟩
  · exact ⟨rfl, rfl, rfl, rfl, rfl⟩
  · exact ⟨rfl, rfl, rfl⟩

/-- Settles O6: each word by evaluating the decoder. -/
theorem listedWordsDecodeAsListed : Obligations.ListedWordsDecodeAsListed := by
  unfold Obligations.ListedWordsDecodeAsListed
  decide

/-! ### The rows of the opcode table and the ranges of the leading field (R73, R74) -/

/-- With a prefix-free ROM a word is classified as a mnemonic exactly when the mnemonic selects it. -/
theorem classify_eq_some_iff {rom : Rom} (h : rom.PrefixFree) (w : InstrWord) (o : Op) :
    classify rom w = some o ↔ rom.selects w o = true :=
  ⟨fun hc => List.find?_some hc, classify_of_selects h⟩

/-- The row of the opcode table that the default ROM gives a mnemonic: the mask of its leading bits, its pattern in their
place, and the mnemonic. -/
def opcodeRow (o : Op) : InstrWord × InstrWord × Op :=
  (BitVec.allOnes 32 <<< (32 - o.bits), BitVec.ofNat 32 (Rom.default.pattern o) <<< (32 - o.bits), o)

/-- A word stands in a mnemonic's row exactly when the mnemonic selects it. -/
theorem and_opcodeRow_eq_iff (w : InstrWord) (o : Op) :
    w &&& (opcodeRow o).1 = (opcodeRow o).2.1 ↔ Rom.default.selects w o = true := by
  constructor
  · intro h
    have hmask : leading o.bits (opcodeRow o).1 = 2 ^ o.bits - 1 := by cases o <;> decide
    have hvalue : Rom.default.selects (opcodeRow o).2.1 o = true := by cases o <;> decide
    rwa [← h, Rom.selects, leading_and_mask o.bits_le hmask] at hvalue
  · intro h
    have hlead : w >>> (32 - o.bits) = BitVec.ofNat 32 (Rom.default.pattern o) := by
      rw [← beq_iff_eq.1 h, leading, ← BitVec.toNat_ushiftRight, BitVec.ofNat_toNat, BitVec.setWidth_eq]
    rw [opcodeRow, ← BitVec.shiftLeft_ushiftRight, hlead]

/-- Settles O2: the listed rows are the default ROM's (`opcodeRow`), so a word stands in a row exactly when it is classified
as the row's mnemonic. -/
theorem tableRowsDecodeAndTheRestIsUnknown : Obligations.TableRowsDecodeAndTheRestIsUnknown := by
  unfold Obligations.TableRowsDecodeAndTheRestIsUnknown
  intro rows
  have hrow : ∀ row ∈ rows, row = opcodeRow row.2.2 := by decide
  have hmem : ∀ o, opcodeRow o ∈ rows := by intro o; cases o <;> decide
  have hiff (w : InstrWord) (o : Op) : w &&& (opcodeRow o).1 = (opcodeRow o).2.1 ↔ classify Rom.default w = some o :=
    (and_opcodeRow_eq_iff w o).trans (classify_eq_some_iff Rom.default_prefixFree w o).symm
  refine ⟨fun row hr w hw => ?_, fun w hw => ?_⟩
  · rw [hrow row hr] at hw
    exact decode_of_classify ((hiff w _).1 hw)
  · refine (decode_eq_unknown_iff ..).2 ⟨Option.eq_none_iff_forall_ne_some.2 fun o ho => ?_, rfl⟩
    exact hw _ (hmem o) ((hiff w o).2 ho)

/-- The mnemonic of the class a word is given, by the first 11 bits: `""` when it is given none (R74). -/
theorem mnemonic_decode (rom : Rom) (w : InstrWord) :
    (decode rom w).mnemonic = ((classify rom w).map Op.name).getD "" := by
  rw [decode]
  cases classify rom w with
  | none => rfl
  | some o => simp [Decoded.mnemonic]

/-- A mnemonic selects a word by as many of the first 11 bits as its pattern is wide. -/
theorem selects_iff (rom : Rom) (w : InstrWord) (o : Op) :
    rom.selects w o = true ↔ leading 11 w / 2 ^ (11 - o.bits) = rom.pattern o := by
  have hbits : o.bits ≤ 11 := by cases o <;> decide
  rw [Rom.selects, beq_iff_eq, ← leading_shiftRight hbits (by decide), Nat.shiftRight_eq_div_pow]

/-- R73's list names each mnemonic that selects the word. -/
theorem rangeMnemonic_of_selects {w : InstrWord} {o : Op} (h : Rom.default.selects w o = true) :
    rangeMnemonic (leading 11 w) = o.name := by
  cases o with
  | add | sub | and | orr | eor | lsl | asr | lsr | ldur | stur | nop | brk =>
    exact congrArg rangeMnemonic (beq_iff_eq.1 h)
  | addi | subi | movz | movk | cbz | cbnz | b =>
    simp only [selects_iff, Op.bits, Op.format, Format.opcodeBits, Rom.pattern, Rom.default, patternB,
      BitVec.reduceToNat] at h
    simp (disch := omega) only [rangeMnemonic, if_pos, if_neg, Op.name]

/-- R73's list names nothing where no mnemonic selects the word. -/
theorem rangeMnemonic_of_not_selects {w : InstrWord} (h : ∀ o ∈ classOrder, ¬Rom.default.selects w o = true) :
    rangeMnemonic (leading 11 w) = "" := by
  simp only [selects_iff, classOrder, List.cons_append, List.nil_append, List.forall_mem_cons, Op.bits, Op.format,
    Format.opcodeBits, Rom.pattern, Rom.default, patternB, patternNop, patternBreak, BitVec.reduceToNat] at h
  simp (disch := omega) only [rangeMnemonic, if_neg]

/-- Settles O3: in a prefix-free ROM only a mnemonic itself clashes with it (`Rom.PrefixFree.eq_of_clash`), and the ranges
are those of the default patterns. -/
theorem classificationOrderNeverDecides : Obligations.ClassificationOrderNeverDecides := by
  refine ⟨fun rom w o h => classify_eq_some_iff h w o, fun rom w o p h ho hp => h.eq_of_clash (Rom.clash_of_selects ho hp),
    Rom.default_prefixFree, fun w => ?_⟩
  rw [mnemonic_decode, ← leading_eq 11 w]
  cases hc : classify Rom.default w with
  | none => exact (rangeMnemonic_of_not_selects (List.find?_eq_none.1 hc)).symm
  | some o => exact (rangeMnemonic_of_selects (List.find?_some hc)).symm

end Sys2Proof.Machine
end

section
/-! The statements about the step of `40_decode_and_step.md` and the ends of a run of `60_exceptions.md`: what an executed
cycle leaves behind (R107, R181, R182), which step raises which error (R108, R171, R176), and a stopped block (R177). -/

namespace Sys2Proof.Machine

/-! ### What an executed cycle leaves behind (R107 steps 4 to 9) -/

/-- A step executes one instruction at most. -/
theorem Executes.unique {s : State} {w v : InstrWord} {i j : Instr} (h : Executes s w i) (h' : Executes s v j) :
    w = v ∧ i = j := by
  obtain ⟨-, hw, hi⟩ := h
  obtain ⟨-, hv, hj⟩ := h'
  obtain rfl : w = v := Option.some.inj (hw.symm.trans hv)
  exact ⟨rfl, Decoded.instr.inj (hi.symm.trans hj)⟩

/-- The state `t` after a step that executed `i` in `s`: the instruction's store and index, one record, the count, and the
status by BREAK and the guard. -/
structure Executed (s : State) (w : InstrWord) (i : Instr) (t : State) : Prop where
  mem : t.mem = memAfter s i
  idx : t.idx = s.idx + if i = .brk then 0 else controlDelta s i
  trace : t.trace = s.trace ++ [traceRecord s t w i]
  cycle : t.cycle = s.cycle + if i = .brk then 0 else 1
  status : (i = .brk ∧ t.status = .halted) ∨
    (i ≠ .brk ∧ t.status = .running ∧ ∀ m, s.cfg.maxCycles = some m → s.cycle + 1 ≤ m) ∨
    (i ≠ .brk ∧ t.status = .fault (.runawayExecution (s.cycle + 1)) ∧ ∃ m, s.cfg.maxCycles = some m ∧ m < s.cycle + 1)

/-- An executed cycle that completes ends in such a state. -/
theorem executed_of_executeCycle {s t : State} {w : InstrWord} {i : Instr} (he : Executes s w i)
    (h : executeCycle s w i = .next t) : Executed s w i t := by
  obtain ⟨u, hu, hcases⟩ := executeCycle_next he h
  obtain ⟨-, -, hcycle, htrace, -⟩ := exec_control hu
  have hmem := exec_mem hu
  have hidx := exec_idx hu
  rcases hcases with ⟨hb, rfl, rfl⟩ | ⟨hb, hstatus, hguard, rfl⟩ | ⟨hb, -, m, hm, hlt, rfl⟩
  · exact ⟨hmem, hidx, rfl, by simp [hb], .inl ⟨hb, rfl⟩⟩
  · exact ⟨hmem, hidx, by simp [htrace, traceRecord], by simp [hb], .inr (.inl ⟨hb, hstatus, hguard⟩)⟩
  · exact ⟨hmem, hidx, by simp [htrace, traceRecord], by simp [hb], .inr (.inr ⟨hb, rfl, m, hm, hlt⟩)⟩

/-- A step that executes an instruction and completes. -/
theorem executed_of_step {s t : State} {w : InstrWord} {i : Instr} (he : Executes s w i) (h : step s = .next t) :
    Executed s w i t :=
  executed_of_executeCycle he ((step_executes he).symm.trans h)

/-- A step that executes nothing gives the state back or raises an error. -/
theorem step_idle {s t : State} (hne : ∀ w i, ¬Executes s w i) (h : step s = .next t) : t = s ∨ ∃ k, t = s.raise k := by
  rcases step_cases h with ⟨-, ht⟩ | ⟨-, -, ht⟩ | ⟨w, -, -, -, ht⟩ | ⟨w, i, he, -⟩
  · exact .inl ht
  · exact .inr ⟨_, ht⟩
  · exact .inr ⟨_, ht⟩
  · exact absurd he (hne w i)

/-- Settles O45: what an executed cycle adds to the trace (`Executed.trace`), and `step_idle`. -/
theorem eachExecutedCycleEmitsOneRecord : Obligations.EachExecutedCycleEmitsOneRecord := by
  refine fun s t h => ⟨fun w i he => (executed_of_step he h).trace, fun hne => ?_⟩
  rcases step_idle hne h with rfl | ⟨k, rfl⟩ <;> rfl

/-- Settles O46: what an executed cycle adds to the counter (`Executed.cycle`), and `step_idle`. -/
theorem cycleCountsExecutedInstructions : Obligations.CycleCountsExecutedInstructions := by
  refine fun s t h => ⟨fun ⟨w, i, he, hb⟩ => ?_, fun hne => ?_⟩
  · rw [(executed_of_step he h).cycle, if_neg hb]
  · by_cases hx : ∃ w i, Executes s w i
    · obtain ⟨w, i, he⟩ := hx
      have hb : i = .brk := by_contra fun hb => hne ⟨w, i, he, hb⟩
      rw [(executed_of_step he h).cycle, if_pos hb, Nat.add_zero]
    · rcases step_idle (fun w i he => hx ⟨w, i, he⟩) h with rfl | ⟨k, rfl⟩ <;> rfl

/-! ### The step from the instruction's meaning (R107 steps 4 to 9) -/

/-- A meaning that completes: the step ends its cycle. -/
theorem step_of_exec_next {s t : State} {w : InstrWord} {i : Instr} (he : Executes s w i) (ht : exec i s = .next t) :
    step s = .next (retire s t w i) := by
  rw [step_executes he, executeCycle, ht]

/-- A meaning that stops: its fault is the step's. -/
theorem step_of_exec_fault {s : State} {w : InstrWord} {i : Instr} {f : Fault} (he : Executes s w i)
    (hf : exec i s = .fault f) : step s = .fault f := by
  rw [step_executes he, executeCycle, hf]

/-- After a BREAK the cycle ends with its record. -/
theorem retire_of_halted {s t : State} (w : InstrWord) (i : Instr) (ht : t.status = .halted) :
    retire s t w i = t.emit (traceRecord s t w i) := by
  rw [retire, State.emit_status, if_pos ht]

/-- After every other instruction the cycle is counted. -/
theorem retire_of_not_halted {s t : State} (w : InstrWord) (i : Instr) (ht : t.status ≠ .halted) :
    retire s t w i = countCycle (t.emit (traceRecord s t w i)) := by
  rw [retire, State.emit_status, if_neg ht]

/-- Settles O39: the step ends the cycle of the state the meaning gives (`retire`), and counting it trips the guard exactly
when it passes the bound (`countCycle_cases`). -/
theorem stepRunsTheDecodedInstruction : Obligations.StepRunsTheDecodedInstruction := by
  intro s k w i hs hidx himem hd
  have he : Executes s w i := ⟨hs, (fetch_eq_some_iff s w).2 ⟨k, hidx, himem⟩, hd⟩
  refine ⟨fun t ht => ⟨fun hh => ?_, fun hh hguard => ?_, fun hh ⟨m, hm, hlt⟩ => ?_⟩, fun f hf => step_of_exec_fault he hf⟩
  · rw [step_of_exec_next he ht, retire_of_halted w i hh]
    rfl
  · rw [step_of_exec_next he ht, retire_of_not_halted w i hh]
    rcases countCycle_cases (t.emit (traceRecord s t w i)) with ⟨-, e⟩ | ⟨m, hm, hlt, -⟩
    · rw [e]
      rfl
    · exact absurd (hguard m hm) (Nat.not_le.2 hlt)
  · rw [step_of_exec_next he ht, retire_of_not_halted w i hh]
    rcases countCycle_cases (t.emit (traceRecord s t w i)) with ⟨hguard, -⟩ | ⟨-, -, -, e⟩
    · exact absurd (hguard m hm) (Nat.not_le.2 hlt)
    · rw [e]
      rfl

/-! ### Which step raises which error (R108, R171, R176) -/

/-- A step of a running block that ends in DecodeFailure fetched an UNKNOWN word, and records its index and the word
(R171). -/
theorem step_raises_decodeFailure {s t : State} {k : Int} {w : InstrWord} (hs : s.status = .running)
    (h : step s = .next t) (ht : t.status = .fault (.decodeFailure k w)) :
    k = s.idx ∧ s.fetch = some w ∧ decode s.cfg.rom w = .unknown w := by
  rcases step_cases h with ⟨hstopped, -⟩ | ⟨-, -, rfl⟩ | ⟨v, -, hf, hd, rfl⟩ | ⟨v, i, he, hc⟩
  · exact absurd hs hstopped
  · cases ht
  · cases ht
    exact ⟨rfl, hf, hd⟩
  · have hends := executeCycle_status he hc
    simp [ht] at hends

/-- Settles O41: a running block at a word of no class raises the error (`step_unknown`), and no other step does
(`step_raises_decodeFailure`). -/
theorem unknownWordIsRecordedAndNotApplied : Obligations.UnknownWordIsRecordedAndNotApplied := by
  refine ⟨fun s k w hs hidx himem hc => ?_, fun s t k w hs h ht => ?_⟩
  · exact step_unknown hs ((fetch_eq_some_iff s w).2 ⟨k, hidx, himem⟩) ((decode_eq_unknown_iff ..).2 ⟨hc, rfl⟩)
  · obtain ⟨hk, hf, hd⟩ := step_raises_decodeFailure hs h ht
    exact ⟨hk, hf, ((decode_eq_unknown_iff ..).1 hd).1⟩

/-- Settles O43: the four kinds of step (`step_cases`), and the three ends of an executed cycle (`Executed.status`). -/
theorem runEndsOnlyInTheFourWays : Obligations.RunEndsOnlyInTheFourWays := by
  intro s t hs h ht
  rcases step_cases h with ⟨hstopped, -⟩ | ⟨-, hf, rfl⟩ | ⟨w, -, hf, hd, rfl⟩ | ⟨w, i, he, hc⟩
  · exact absurd hs hstopped
  · exact .inr (.inl ⟨rfl, hf⟩)
  · exact .inr (.inr (.inl ⟨w, rfl, hf, hd⟩))
  · rcases (executed_of_executeCycle he hc).status with ⟨rfl, hh⟩ | ⟨-, hr, -⟩ | ⟨hb, hfault, m, hm, hlt⟩
    · exact .inl ⟨hh, w, he⟩
    · exact absurd hr ht
    · exact .inr (.inr (.inr ⟨w, i, m, he, hb, hm, hlt, hfault⟩))

/-- Settles O44: the bounds check and the decode raise an error and do nothing else (`step_cases`), and the guard fires on
the state after the instruction, its record and the count (`executeCycle_next`). -/
theorem faultEntryIsPrecise : Obligations.FaultEntryIsPrecise := by
  intro s t k hs h ht
  rcases step_cases h with ⟨hstopped, -⟩ | ⟨-, -, rfl⟩ | ⟨w, -, -, -, rfl⟩ | ⟨w, i, he, hc⟩
  · exact absurd hs hstopped
  · cases ht
    exact ⟨fun _ => rfl, fun hcode => by cases hcode⟩
  · cases ht
    exact ⟨fun _ => rfl, fun hcode => by cases hcode⟩
  · obtain ⟨u, hu, hends⟩ := executeCycle_next he hc
    obtain ⟨-, -, -, htrace, -⟩ := exec_control hu
    rcases hends with ⟨-, rfl, rfl⟩ | ⟨-, hr, -, rfl⟩ | ⟨-, -, -, -, -, rfl⟩
    · cases ht
    · simp [hr] at ht
    · cases ht
      refine ⟨fun hcode => absurd rfl hcode, fun _ => ⟨w, i, u, he, hu, ?_⟩⟩
      rw [State.emit, htrace]
      rfl

/-! ### A stopped block (R177) -/

/-- Settles O42: by induction on the number of steps, each of which gives the state back (`step_stopped`). -/
theorem stoppedBlockStaysAsItIs : Obligations.StoppedBlockStaysAsItIs := by
  intro s k hs
  induction k with
  | zero => rfl
  | succ k ih => exact (run_succ k s s).2 ⟨s, step_stopped hs, ih⟩

/-! ### The interface's placed word -/

/-- The placed word stands in its slot. -/
theorem getElem?_placeAt (imem : List InstrWord) (k : Nat) (w : InstrWord) : (placeAt imem k w)[k]? = some w := by
  have hlen : (imem.take k ++ List.replicate (k - imem.length) nopWord).length = k := by
    rw [List.length_append, List.length_take, List.length_replicate]
    omega
  rw [placeAt, List.getElem?_append_right hlen.le, hlen, Nat.sub_self, List.getElem?_cons_zero]

/-- The state with the word placed fetches it. -/
theorem fetch_placeWord (s : State) (w : InstrWord) : (placeWord s w).fetch = some w :=
  (fetch_eq_some_iff _ w).2 ⟨s.idx.toNat, rfl, getElem?_placeAt ..⟩

/-- What the table's numbering reads is what the default ROM decodes. -/
theorem decode_of_decodeTableWord {nbits w : Nat} {i : Instr} (h : decodeTableWord nbits w = some i) :
    decode Rom.default (tableWord nbits w) = .instr i := by
  rw [decodeTableWord] at h
  split at h
  · split at h
    case h_1 hd => rw [tableWord, hd, Option.some.inj h]
    case h_2 => cases h
  · cases h

/-- Settles O48: the placed word is fetched (`fetch_placeWord`), and placing it writes the status, the index and the
instruction store alone. -/
theorem placedWordIsFetchedNext : Obligations.PlacedWordIsFetchedNext := by
  intro s nbits w hn
  refine ⟨rfl, fetch_placeWord .., rfl, rfl, rfl, rfl, rfl, fun i hrom hi => ⟨rfl, fetch_placeWord .., ?_⟩⟩
  have hcfg : (s.withFetchWord nbits w).cfg.rom = Rom.default := hrom
  rw [hcfg, decode_of_decodeTableWord hi]

end Sys2Proof.Machine
end

section
/-! The invariant of the block (R27, R40, R54, R160, R170, R182): every step keeps it, and reset and load establish it; the
bound that the guard puts on a run (R108, R174). -/

namespace Sys2Proof.Machine

/-! ### The counter, the records and the bound -/

/-- The counter goes with the number of records and stays within its bound: the part of the invariant that says nothing of
the store, and holds of every loaded program. -/
structure Counted (s : State) : Prop where
  count : s.trace.length + 1 = s.cycle + (if s.status = .halted then 1 else 0)
  bound : ∀ m, s.cfg.maxCycles = some m → s.cycle ≤ cycleBound m ∨
    (s.status = .fault (.runawayExecution s.cycle) ∧ s.cycle = cycleBound m + 1)

/-- A running block has executed one cycle less than its counter says. -/
theorem Counted.count_running {s : State} (h : Counted s) (hs : s.status = .running) : s.trace.length + 1 = s.cycle := by
  simpa [hs] using h.count

/-- The counter of a running block is within the bound. -/
theorem Counted.bound_running {s : State} (h : Counted s) (hs : s.status = .running) {m : Nat}
    (hm : s.cfg.maxCycles = some m) : s.cycle ≤ cycleBound m := by
  simpa [hs] using h.bound m hm

/-- Raising an error counts nothing. -/
theorem Counted.raise {s : State} (h : Counted s) (hs : s.status = .running) (k : ErrorKind) : Counted (s.raise k) where
  count := by simpa using h.count_running hs
  bound _ hm := .inl (h.bound_running hs hm)

/-- An executed cycle emits its record, and is counted and guarded if it was not a BREAK. -/
theorem Counted.executed {s t : State} {w : InstrWord} {i : Instr} (h : Counted s) (he : Executes s w i)
    (hx : Executed s w i t) (hcfg : t.cfg = s.cfg) : Counted t := by
  have hcount := h.count_running he.1
  have htrace : t.trace.length = s.trace.length + 1 := by rw [hx.trace, List.length_append, List.length_singleton]
  have hcycle := hx.cycle
  rcases hx.status with ⟨hb, hst⟩ | ⟨hb, hst, hguard⟩ | ⟨hb, hst, m, hm, hlt⟩
  · rw [if_pos hb] at hcycle
    refine ⟨by rw [if_pos hst]; omega, fun m hm => .inl ?_⟩
    rw [hcycle]
    exact h.bound_running he.1 (hcfg ▸ hm)
  · rw [if_neg hb] at hcycle
    refine ⟨by simp [hst]; omega, fun m hm => .inl ?_⟩
    rw [hcycle]
    exact Nat.le_trans (hguard m (hcfg ▸ hm)) (Nat.le_max_left m 1)
  · rw [if_neg hb] at hcycle
    refine ⟨by simp [hst]; omega, fun m' hm' => .inr ⟨by rw [hst, hcycle], ?_⟩⟩
    obtain rfl : m' = m := Option.some.inj ((hcfg ▸ hm').symm.trans hm)
    have hbound := h.bound_running he.1 hm
    simp only [cycleBound] at hbound ⊢
    omega

/-- Every step keeps the count and the bound. -/
theorem Counted.step {s t : State} (h : Counted s) (hst : step s = .next t) : Counted t := by
  obtain ⟨hcfg, -⟩ := step_config hst
  rcases step_cases hst with ⟨-, rfl⟩ | ⟨hs, -, rfl⟩ | ⟨w, hs, -, -, rfl⟩ | ⟨w, i, he, hc⟩
  · exact h
  · exact h.raise hs _
  · exact h.raise hs _
  · exact h.executed he (executed_of_executeCycle he hc) hcfg

/-! ### Every step keeps the invariant -/

/-- The invariant says of the counter what `Counted` says. -/
theorem Inv.counted {s : State} (h : Inv s) : Counted s := ⟨h.count, h.bound⟩

/-- The store after an instruction is canonical: STUR writes at an `s64` position (R40, R47). -/
theorem wf_memAfter {s : State} (h : Memory.wf s.mem) (i : Instr) : Memory.wf (memAfter s i) := by
  cases i with
  | stur rd rn addr => exact Memory.wf_write h (effectivePosition_ok ..)
  | _ => exact h

/-- Raising an error that says what happened keeps the invariant (R176). -/
theorem Inv.raise {s : State} (h : Inv s) (hs : s.status = .running) {k : ErrorKind} (hk : k.Truthful (s.raise k)) :
    Inv (s.raise k) where
  store := h.store
  dumps := h.dumps
  count := (h.counted.raise hs k).count
  numbered := h.numbered
  last := h.last
  bound := (h.counted.raise hs k).bound
  halted hst := by cases hst
  fault k' hst := by cases hst; exact hk

/-- A record with the next number continues the numbering (R182, R194). -/
theorem numbered_concat {rs : List TraceRecord} {r : TraceRecord} (h : ∀ k q, rs[k]? = some q → q.cycle = k + 1)
    (hr : r.cycle = rs.length + 1) (k : Nat) (q : TraceRecord) (hq : (rs ++ [r])[k]? = some q) : q.cycle = k + 1 := by
  rcases Nat.lt_trichotomy k rs.length with hlt | rfl | hgt
  · rw [List.getElem?_append_left hlt] at hq
    exact h k q hq
  · rw [List.getElem?_concat_length] at hq
    cases hq
    exact hr
  · rw [List.getElem?_eq_none (by rw [List.length_append, List.length_singleton]; exact hgt)] at hq
    cases hq

/-- An executed cycle keeps the invariant (R107 steps 4 to 9). -/
theorem Inv.executed {s t : State} {w : InstrWord} {i : Instr} (h : Inv s) (he : Executes s w i) (hx : Executed s w i t)
    (hcfg : t.cfg = s.cfg) (himem : t.imem = s.imem) : Inv t := by
  have hc := h.counted.executed he hx hcfg
  have hstore : Memory.wf t.mem := hx.mem ▸ wf_memAfter h.store i
  have hnumber : (traceRecord s t w i).cycle = s.trace.length + 1 := (h.counted.count_running he.1).symm
  refine ⟨hstore, fun r hr => ?_, hc.count, hx.trace ▸ numbered_concat h.numbered hnumber, fun r hr => ?_, hc.bound,
    fun hst => ?_, fun k hst => ?_⟩
  · rw [hx.trace, List.mem_append, List.mem_singleton] at hr
    rcases hr with hr | rfl
    · exact h.dumps r hr
    · exact hstore
  · rw [hx.trace, List.getLast?_concat] at hr
    cases hr
    exact ⟨rfl, rfl⟩
  · rcases hx.status with ⟨rfl, -⟩ | ⟨-, hr, -⟩ | ⟨-, hf, -⟩
    · obtain ⟨-, hfetch, hd⟩ := he
      have hidx : t.idx = s.idx := by simpa using hx.idx
      refine ⟨w, ?_, by rw [hcfg, hd]⟩
      rw [State.fetch, hidx, himem]
      exact hfetch
    · cases hr.symm.trans hst
    · cases hf.symm.trans hst
  · rcases hx.status with ⟨-, hh⟩ | ⟨-, hr, -⟩ | ⟨hb, hf, m, hm, hlt⟩
    · cases hh.symm.trans hst
    · cases hr.symm.trans hst
    · cases hf.symm.trans hst
      exact ⟨by rw [hx.cycle, if_neg hb], m, by rw [hcfg, hm], hlt⟩

/-- Settles O49: a step leaves the state alone, raises an error that says what happened (`Inv.raise`) or executes an
instruction (`Inv.executed`). -/
theorem stepKeepsTheInvariant : Obligations.StepKeepsTheInvariant := by
  intro s t h hst
  obtain ⟨hcfg, himem⟩ := step_config hst
  rcases step_cases hst with ⟨-, rfl⟩ | ⟨hs, hf, rfl⟩ | ⟨w, hs, hf, hd, rfl⟩ | ⟨w, i, he, hc⟩
  · exact h
  · exact h.raise hs ⟨rfl, (fetch_eq_none_iff s).1 hf⟩
  · exact h.raise hs ⟨rfl, hf, hd⟩
  · exact h.executed he (executed_of_executeCycle he hc) hcfg himem

/-! ### Reset and load establish it (R35, R190) -/

section
variable (cfg : Config) (ws : List InstrWord)

@[simp] theorem load_cfg : (load cfg ws).cfg = cfg := rfl
@[simp] theorem load_imem : (load cfg ws).imem = ws.take (instructionCount cfg.rom ws) := rfl
@[simp] theorem load_idx : (load cfg ws).idx = 0 := rfl
@[simp] theorem load_cycle : (load cfg ws).cycle = 1 := rfl
@[simp] theorem load_status : (load cfg ws).status = .running := rfl
@[simp] theorem load_trace : (load cfg ws).trace = [] := rfl
@[simp] theorem load_mem : (load cfg ws).mem =
    dataEntries (instructionCount cfg.rom ws) (ws.drop (instructionCount cfg.rom ws)) := rfl
@[simp] theorem load_reg (r : Reg) : (load cfg ws).reg r = resetRegister := State.reg_reset r

/-- A loaded program has executed nothing. -/
theorem counted_load : Counted (load cfg ws) where
  count := rfl
  bound m _ := .inl (Nat.le_max_right m 1)

end

/-- Settles O59: every field of reset, and the fields that load leaves as reset gives them. -/
theorem loadLeavesTheResetValues : Obligations.LoadLeavesTheResetValues :=
  ⟨fun cfg ws => ⟨rfl, rfl, rfl, rfl, rfl, load_reg cfg ws⟩, State.reg_reset, rfl, rfl, rfl, rfl, rfl, rfl, rfl, rfl, rfl,
    rfl⟩

/-- Settles O51: nothing has been executed (`counted_load`), and the initial store is canonical (`wf_dataEntries`). -/
theorem loadedProgramMeetsTheInvariant : Obligations.LoadedProgramMeetsTheInvariant := by
  intro cfg ws hfits
  have hstore : Memory.wf (load cfg ws).mem := by
    apply wf_dataEntries
    rw [List.length_drop, Nat.add_sub_cancel' (instructionCount_le cfg.rom ws)]
    exact hfits
  exact {
    store := hstore
    dumps := fun r hr => absurd hr List.not_mem_nil
    count := (counted_load cfg ws).count
    numbered := fun k r hr => by cases hr
    last := fun r hr => by cases hr
    bound := (counted_load cfg ws).bound
    halted := fun hst => by cases hst
    fault := fun k hst => by cases hst }

/-- Settles O50: reset is the empty program loaded with the default parameters. -/
theorem resetMeetsTheInvariant : Obligations.ResetMeetsTheInvariant :=
  loadedProgramMeetsTheInvariant defaultConfig [] (by decide)

/-! ### Guarded runs (R108, R174) -/

/-- The run of a loaded program is counted at every point. -/
theorem counted_run {cfg : Config} {ws : List InstrWord} {k : Nat} {t : State}
    (h : Host.Core.run core k (load cfg ws) = .next t) : Counted t :=
  run_keeps (fun _ _ hc => hc.step) (counted_load cfg ws) h

/-- Settles O53: the counter is within its bound but in RunawayExecution, where it is one past (`Counted`); and it is one
more than the number of records but after a BREAK, where it is that number. -/
theorem guardedRunsEmitAtMostTheBound : Obligations.GuardedRunsEmitAtMostTheBound := by
  intro cfg ws m k t hm h
  obtain ⟨hcfg, -⟩ := noStepWritesProgramOrParameters k _ t h
  have hcounted := counted_run h
  have hcount := hcounted.count
  rcases hcounted.bound m (by rw [hcfg, load_cfg, hm]) with hle | ⟨hst, hpast⟩
  · refine ⟨?_, fun _ => hle⟩
    split at hcount <;> simp only [cycleBound] at hle <;> omega
  · refine ⟨?_, fun hh => by cases hst.symm.trans hh⟩
    simp only [hst, reduceCtorEq, if_false] at hcount
    simp only [cycleBound] at hpast
    omega

/-- With truncating stores every step completes (R170). -/
theorem step_completes {s : State} (h : s.cfg.sturWide = .truncate) : ∃ t, step s = .next t := by
  by_cases hs : s.status = .running
  · cases hf : s.fetch with
    | none => exact ⟨_, step_outOfRange hs hf⟩
    | some w =>
      cases hd : decode s.cfg.rom w with
      | unknown v =>
        obtain ⟨-, rfl⟩ := (decode_eq_unknown_iff ..).1 hd
        exact ⟨_, step_unknown hs hf hd⟩
      | instr i =>
        obtain ⟨t, ht⟩ := exec_completes h i
        exact ⟨_, step_of_exec_next ⟨hs, hf, hd⟩ ht⟩
  · exact ⟨s, step_stopped hs⟩

/-- With truncating stores every run completes. -/
theorem run_completes (k : Nat) {s : State} (h : s.cfg.sturWide = .truncate) :
    ∃ t, Host.Core.run core k s = .next t := by
  induction k generalizing s with
  | zero => exact ⟨s, rfl⟩
  | succ k ih =>
    obtain ⟨u, hu⟩ := step_completes h
    obtain ⟨t, ht⟩ := ih (s := u) (by rw [(step_config hu).1, h])
    exact ⟨t, (run_succ k s t).2 ⟨u, hu, ht⟩⟩

/-- A step that leaves the block running has counted a cycle within the guard's bound. -/
theorem step_running {s t : State} {m : Nat} (hm : s.cfg.maxCycles = some m) (h : step s = .next t)
    (ht : t.status = .running) : t.cycle = s.cycle + 1 ∧ s.cycle + 1 ≤ m := by
  rcases step_cases h with ⟨hstopped, rfl⟩ | ⟨-, -, rfl⟩ | ⟨w, -, -, -, rfl⟩ | ⟨w, i, he, hc⟩
  · exact absurd ht hstopped
  · cases ht
  · cases ht
  · have hx := executed_of_executeCycle he hc
    rcases hx.status with ⟨-, hh⟩ | ⟨hb, -, hguard⟩ | ⟨-, hf, -⟩
    · cases hh.symm.trans ht
    · exact ⟨by rw [hx.cycle, if_neg hb], hguard m hm⟩
    · cases hf.symm.trans ht

/-- A run that leaves the block running has counted every step, within the guard's bound. -/
theorem run_running {k m : Nat} {s t : State} (hm : s.cfg.maxCycles = some m)
    (h : Host.Core.run core (k + 1) s = .next t) (ht : t.status = .running) : s.cycle + (k + 1) ≤ m := by
  induction k generalizing s with
  | zero =>
    obtain ⟨u, hu, h⟩ := (run_succ _ _ _).1 h
    cases h
    exact (step_running hm hu ht).2
  | succ k ih =>
    obtain ⟨u, hu, h⟩ := (run_succ _ _ _).1 h
    have hurun : u.status = .running := by
      by_contra hstopped
      rw [stoppedBlockStaysAsItIs u (k + 1) hstopped] at h
      cases h
      exact hstopped ht
    have hcycle := (step_running hm hu hurun).1
    have hrest := ih (s := u) (by rw [(step_config hu).1, hm]) h
    omega

/-- Settles O52: a run completes (`run_completes`), and `MAX_CYCLES + 1` steps that leave the block running would have
counted more cycles than the bound (`run_running`). -/
theorem guardedRunsEnd : Obligations.GuardedRunsEnd := by
  intro s m hm htruncate
  obtain ⟨t, ht⟩ := run_completes (m + 1) htruncate
  refine ⟨t, ht, fun hrun => ?_⟩
  have hbound := run_running hm ht hrun
  omega

end Sys2Proof.Machine
end

section
/-! The statements of `41_arith_logic_reg.md` to `44_move_wide.md`: what the writing instructions make of their destination
register, and that nothing else changes (R106, R121 to R142). -/

namespace Sys2Proof.Machine

/-! ### The shape of a writing instruction (R106) -/

/-- A writing instruction completes with a property that its destination value has, and moves the index by one. -/
theorem exec_writes {i : Instr} {rd : Reg} (hw : writesReg i = some rd) (s : State) {P : Word → Prop}
    (hP : P (destValue s i)) : ∃ t, exec i s = .next t ∧ P (t.reg rd) ∧ t.idx = s.idx + 1 :=
  ⟨_, exec_of_writesReg hw s, by simpa using hP, rfl⟩

/-- Writing a register and moving the index leaves everything else as it was. -/
theorem frame_setReg_advance (s : State) (rd : Reg) (v : Word) (d : Int) :
    Frame (some rd) none s ((s.setReg rd v).advance d) where
  regs r hr := State.reg_setReg_other s rd r v fun e => hr (congrArg some e)
  store _ _ := rfl
  status := rfl
  cfg := rfl
  imem := rfl
  cycle := rfl
  trace := rfl

/-- Settles O30: writing the destination register and moving the index is all a writing instruction does
(`exec_of_writesReg`). -/
theorem writingInstructionsChangeOnlyRd : Obligations.WritingInstructionsChangeOnlyRd := by
  intro i rd s t hw h
  rw [exec_of_writesReg hw] at h
  cases h
  exact frame_setReg_advance s rd _ 1

/-! ### Sums and differences (R121, R122, R130, R131) -/

/-- Settles O7: the destination value is the `s64` of the sum. -/
theorem addWritesTheWrappedSum : Obligations.AddWritesTheWrappedSum :=
  ⟨rowDecodes (by decide) (by decide), fun s _ _ _ _ => exec_writes (P := (IsS64 · _)) rfl s (isS64_s64 _)⟩

/-- Settles O8: the destination value is the `s64` of the difference. -/
theorem subWritesTheWrappedDifference : Obligations.SubWritesTheWrappedDifference :=
  ⟨rowDecodes (by decide) (by decide), fun s _ _ _ _ => exec_writes (P := (IsS64 · _)) rfl s (isS64_s64 _)⟩

/-- Settles O12: the destination value is the `s64` of the sum with the immediate. -/
theorem addiWritesTheWrappedSum : Obligations.AddiWritesTheWrappedSum :=
  ⟨rowDecodes (by decide) (by decide), fun s _ _ _ => exec_writes (P := (IsS64 · _)) rfl s (isS64_s64 _)⟩

/-- Settles O13: the destination value is the `s64` of the difference with the immediate. -/
theorem subiWritesTheWrappedDifference : Obligations.SubiWritesTheWrappedDifference :=
  ⟨rowDecodes (by decide) (by decide), fun s _ _ _ => exec_writes (P := (IsS64 · _)) rfl s (isS64_s64 _)⟩

/-! ### Bitwise operations (R123 to R125) -/

/-- Settles O9: bit by bit. -/
theorem andWritesTheBitwiseAnd : Obligations.AndWritesTheBitwiseAnd :=
  ⟨rowDecodes (by decide) (by decide), fun s _ rn rm _ =>
    exec_writes (P := fun x => ∀ j, x.getLsbD j = ((s.reg rn).getLsbD j && (s.reg rm).getLsbD j)) rfl s
      fun _ => BitVec.getLsbD_and⟩

/-- Settles O10: bit by bit. -/
theorem orrWritesTheBitwiseOr : Obligations.OrrWritesTheBitwiseOr :=
  ⟨rowDecodes (by decide) (by decide), fun s _ rn rm _ =>
    exec_writes (P := fun x => ∀ j, x.getLsbD j = ((s.reg rn).getLsbD j || (s.reg rm).getLsbD j)) rfl s
      fun _ => BitVec.getLsbD_or⟩

/-- Settles O11: bit by bit. -/
theorem eorWritesTheBitwiseXor : Obligations.EorWritesTheBitwiseXor :=
  ⟨rowDecodes (by decide) (by decide), fun s _ rn rm _ =>
    exec_writes (P := fun x => ∀ j, x.getLsbD j = Bool.xor ((s.reg rn).getLsbD j) ((s.reg rm).getLsbD j)) rfl s
      fun _ => BitVec.getLsbD_xor⟩

/-! ### Shifts (R135 to R137) -/

/-- LSL's value read unsigned: the low 64 bits of the product. -/
theorem toNat_lsl (x : Word) (k : Nat) : (s64 (u64 x * 2 ^ k)).toNat = x.toNat * 2 ^ k % 2 ^ 64 := by
  rw [s64_u64_mul_two_pow, BitVec.toNat_shiftLeft, Nat.shiftLeft_eq]

/-- LSR's value read unsigned: the quotient. -/
theorem toNat_lsr (x : Word) (k : Nat) : (s64 (Int.fdiv (u64 x) (2 ^ k))).toNat = x.toNat / 2 ^ k := by
  rw [s64_u64_fdiv_two_pow, BitVec.toNat_ushiftRight, Nat.shiftRight_eq_div_pow]

/-- ASR's value read signed: the quotient rounded toward minus infinity. -/
theorem toInt_asr (x : Word) (k : Nat) : (s64 (Int.fdiv x.toInt (2 ^ k))).toInt = x.toInt / 2 ^ k := by
  rw [s64_fdiv_two_pow, BitVec.toInt_sshiftRight, Int.shiftRight_eq_div_pow]
  norm_cast

/-- Settles O14: LSL's destination value (`toNat_lsl`). -/
theorem lslWritesTheLowBitsOfTheProduct : Obligations.LslWritesTheLowBitsOfTheProduct :=
  ⟨rowDecodes (by decide) (by decide), fun s _ rn _ shamt =>
    exec_writes (P := fun x => x.toNat = _) rfl s (toNat_lsl (s.reg rn) shamt)⟩

/-- Settles O16: LSR's destination value (`toNat_lsr`). -/
theorem lsrWritesTheUnsignedQuotient : Obligations.LsrWritesTheUnsignedQuotient :=
  ⟨rowDecodes (by decide) (by decide), fun s _ rn _ shamt =>
    exec_writes (P := fun x => x.toNat = _) rfl s (toNat_lsr (s.reg rn) shamt)⟩

/-- Settles O15: ASR's destination value (`toInt_asr`), and the two inequalities of the floor. -/
theorem asrWritesTheFloorOfTheSignedQuotient : Obligations.AsrWritesTheFloorOfTheSignedQuotient := by
  refine ⟨rowDecodes (by decide) (by decide), fun s rd rn rm shamt => ?_⟩
  have hpos : (0 : Int) < 2 ^ shamt := by positivity
  obtain ⟨t, ht, hval, hidx⟩ :=
    exec_writes (i := .asr rd rn rm shamt) (P := fun x => x.toInt = _) rfl s (toInt_asr (s.reg rn) shamt)
  refine ⟨t, ht, ?_, ?_, hidx⟩
  · rw [hval]
    exact Int.ediv_mul_le _ hpos.ne'
  · rw [hval]
    exact Int.lt_ediv_add_one_mul_self _ hpos

/-! ### Wide moves (R140 to R142) -/

/-- The bits of MOVK's value: those of the field in the slice, those of the register outside (R141). -/
theorem getLsbD_movk (x : Word) {shcode field : Nat} (h : WideOk shcode field) {j : Nat} (hj : j < 64) :
    ((x &&& ~~~wideMask shcode) ||| wideField shcode field).getLsbD j =
      if 16 * shcode ≤ j ∧ j < 16 * shcode + 16 then field.testBit (j - 16 * shcode) else x.getLsbD j := by
  rw [BitVec.getLsbD_or, BitVec.getLsbD_and, BitVec.getLsbD_not, getLsbD_wideMask h.1, getLsbD_wideField h]
  by_cases hin : 16 * shcode ≤ j ∧ j < 16 * shcode + 16 <;> simp [hin, hj]

/-- Settles O17: the bits of the field in place (`getLsbD_wideField`). -/
theorem movzWritesTheFieldAndZeroes : Obligations.MovzWritesTheFieldAndZeroes := by
  refine ⟨rowDecodes (by decide) (by decide), fun s rd shcode field h => ?_⟩
  obtain ⟨t, ht, hval, hidx⟩ := exec_writes (i := .movz rd shcode field) (P := (· = _)) rfl s rfl
  exact ⟨t, ht, fun j _ => by rw [hval]; exact getLsbD_wideField h j, hidx⟩

/-- Settles O18: the bits of the slice replaced (`getLsbD_movk`). -/
theorem movkReplacesOneSlice : Obligations.MovkReplacesOneSlice := by
  refine ⟨rowDecodes (by decide) (by decide), fun s rd shcode field h => ?_⟩
  obtain ⟨t, ht, hval, hidx⟩ := exec_writes (i := .movk rd shcode field) (P := (· = _)) rfl s rfl
  exact ⟨t, ht, fun j hj => by rw [hval]; exact getLsbD_movk (s.reg rd) h hj, hidx⟩

/-- The slice of a register that MOVK names, in place (R141). -/
theorem and_wideMask (x : Word) {shcode : Nat} (h : shcode < 4) :
    x &&& wideMask shcode = wideField shcode (x.toNat / 2 ^ (16 * shcode) % 65536) := by
  have hok : WideOk shcode (x.toNat / 2 ^ (16 * shcode) % 65536) := ⟨h, Nat.mod_lt _ (by decide)⟩
  apply BitVec.eq_of_getLsbD_eq
  intro j hj
  rw [BitVec.getLsbD_and, getLsbD_wideMask h, getLsbD_wideField hok]
  by_cases hin : 16 * shcode ≤ j ∧ j < 16 * shcode + 16
  · have hlow : j - 16 * shcode < 16 := by omega
    rw [if_pos hin, decide_eq_true hin, Bool.and_true, show 65536 = 2 ^ 16 by rfl, Nat.testBit_mod_two_pow,
      Nat.testBit_div_two_pow, Nat.sub_add_cancel hin.1, decide_eq_true hlow, Bool.true_and, BitVec.getLsbD]
  · rw [if_neg hin, decide_eq_false hin, Bool.and_false]

/-- Replacing the slice is putting the field in and taking the old slice out: the parts share no bit. -/
theorem movk_eq_add_sub (x : Word) {shcode field : Nat} (h : WideOk shcode field) :
    (x &&& ~~~wideMask shcode) ||| wideField shcode field = x + wideField shcode field - (x &&& wideMask shcode) := by
  have hfield : (x &&& ~~~wideMask shcode) &&& wideField shcode field = 0#64 := by
    apply BitVec.eq_of_getLsbD_eq
    intro j hj
    rw [BitVec.getLsbD_and, BitVec.getLsbD_and, BitVec.getLsbD_not, getLsbD_wideMask h.1, getLsbD_wideField h]
    by_cases hin : 16 * shcode ≤ j ∧ j < 16 * shcode + 16 <;> simp [hin]
  have hslice : (x &&& ~~~wideMask shcode) &&& (x &&& wideMask shcode) = 0#64 := by
    ext j hj
    simp only [BitVec.getElem_and, BitVec.getElem_not, BitVec.getElem_zero]
    cases (wideMask shcode)[j] <;> simp
  have hx : (x &&& ~~~wideMask shcode) + (x &&& wideMask shcode) = x := by
    rw [BitVec.add_eq_or_of_and_eq_zero _ _ hslice]
    ext j hj
    simp only [BitVec.getElem_or, BitVec.getElem_and, BitVec.getElem_not]
    rw [← Bool.and_or_distrib_left, Bool.not_or_self, Bool.and_true]
  calc (x &&& ~~~wideMask shcode) ||| wideField shcode field
      = (x &&& ~~~wideMask shcode) + wideField shcode field := (BitVec.add_eq_or_of_and_eq_zero _ _ hfield).symm
    _ = (x &&& ~~~wideMask shcode) + (x &&& wideMask shcode) + wideField shcode field - (x &&& wideMask shcode) := by ring
    _ = x + wideField shcode field - (x &&& wideMask shcode) := by rw [hx]

/-- `s64` keeps sums and differences (R8). -/
theorem s64_add_sub (a b c : Int) : s64 (a + b - c) = s64 a + s64 b - s64 c := by
  rw [s64, Int.sub_eq_add_neg, BitVec.ofInt_add, BitVec.ofInt_add, BitVec.ofInt_neg, ← BitVec.sub_eq_add_neg]
  rfl

/-- Settles O19: MOVK adds the field and subtracts the old slice (`movk_eq_add_sub`), which is the field of the same place
(`and_wideMask`). -/
theorem movkAgreesWithTheArithmeticForm : Obligations.MovkAgreesWithTheArithmeticForm := by
  intro s rd shcode field h
  obtain ⟨t, ht, hval, -⟩ := exec_writes (i := .movk rd shcode field) (P := (· = _)) rfl s rfl
  refine ⟨t, ht, ?_⟩
  have hs64 := isS64_s64 ((s.reg rd).toInt + (field : Int) * 2 ^ (16 * shcode) -
    (((s.reg rd).toNat / 2 ^ (16 * shcode) % 65536 : Nat) : Int) * 2 ^ (16 * shcode))
  rw [s64_add_sub, s64_toInt] at hs64
  rw [hval, destValue, movk_eq_add_sub _ h, and_wideMask _ h.1]
  exact hs64

end Sys2Proof.Machine
end

section
/-! The statements of `45_load_store.md`, `46_branch.md`, `47_system.md` and the canonical form of `20_memory.md`: LDUR and
STUR at their effective position (R145 to R147), the compare branches (R151, R152), NOP and BREAK (R160, R161), and that
every instruction completes (R170). -/

namespace Sys2Proof.Machine

/-! ### The effective position (R47, R147) -/

/-- Settles O20: the position is in range (`effectivePosition_ok`) and congruent (`isS64_s64`), and no other integer is. -/
theorem effectivePositionIsTheWrappedSum : Obligations.EffectivePositionIsTheWrappedSum := by
  intro base addr p
  have hrange : PositionOk (effectivePosition base addr) := effectivePosition_ok base addr
  obtain ⟨k, hk⟩ : ∃ k : Int, effectivePosition base addr = base.toInt + 4 * (addr : Int) + k * 2 ^ 64 := isS64_s64 _
  constructor
  · rintro rfl
    exact ⟨hrange, k, hk⟩
  · rintro ⟨hp, j, hj⟩
    simp only [PositionOk] at hrange hp
    omega

/-- The position of the spec's sum is the model's. -/
theorem IsPosition.effectivePosition_eq {p : Int} {base : Word} {addr : Nat} (h : IsPosition p base addr) :
    effectivePosition base addr = p :=
  (effectivePositionIsTheWrappedSum base addr p).2 h

/-! ### STUR (R146) -/

/-- Storing a word and moving the index leaves everything else as it was. -/
theorem frame_memWrite_advance (s : State) (p : Int) (v : Data) (d : Int) :
    Frame none (some p) s ((s.memWrite p v).advance d) where
  regs _ _ := rfl
  store _ hq := Memory.entry_write_other s.mem v fun e => hq (congrArg some e)
  status := rfl
  cfg := rfl
  imem := rfl
  cycle := rfl
  trace := rfl

/-- A STUR that completes stores the low word of its register at its effective position, and moves the index by one. -/
theorem eq_of_exec_stur {rd rn : Reg} {addr : Nat} {s t : State} (h : exec (.stur rd rn addr) s = .next t) :
    t = (s.memWrite (effectivePosition (s.reg rn) addr) (storeWord (s.reg rd))).advance 1 := by
  rcases exec_next h with ⟨_, _, hw, -⟩ | ⟨_, _, _, hi, ht⟩ | ⟨-, hst, -⟩ | ⟨hi, -⟩
  · cases hw
  · cases hi
    exact ht
  · cases hst
  · cases hi

/-- STUR completes where stores truncate, and otherwise where the value fits (U2). -/
theorem exec_stur {rd : Reg} {s : State} (rn : Reg) (addr : Nat)
    (h : s.cfg.sturWide = .truncate ∨ FitsWord (s.reg rd)) :
    exec (.stur rd rn addr) s =
      .next ((s.memWrite (effectivePosition (s.reg rn) addr) (storeWord (s.reg rd))).advance 1) := by
  have hpass : ¬(s.cfg.sturWide = .fault ∧ ¬FitsWord (s.reg rd)) := by
    rintro ⟨hfault, hwide⟩
    rcases h with htruncate | hfits
    · cases htruncate.symm.trans hfault
    · exact hwide hfits
  exact if_neg hpass

/-- Settles O22: the entry that STUR writes (`exec_stur`) is congruent to the register (`isS32_storeWord`). -/
theorem sturStoresTheLowWord : Obligations.SturStoresTheLowWord := by
  refine ⟨rowDecodes (by decide) (by decide), fun s rd rn addr p hp h => ?_⟩
  obtain rfl := hp.effectivePosition_eq
  exact ⟨_, _, exec_stur rn addr h, Memory.entry_write_same .., isS32_storeWord _, rfl⟩

/-- Settles O23: the strict STUR tests that the value fits, and stops where it does not. -/
theorem strictSturStopsOnAWideValue : Obligations.StrictSturStopsOnAWideValue := by
  intro s rd rn addr p hp hfault hwide
  obtain rfl := hp.effectivePosition_eq
  have hfits : ¬FitsWord (s.reg rd) := by
    rintro ⟨hlow, hhigh⟩
    omega
  exact if_pos ⟨hfault, hfits⟩

/-- Settles O31: a STUR that completes is one write and one index update (`eq_of_exec_stur`). -/
theorem sturChangesOnlyItsPosition : Obligations.SturChangesOnlyItsPosition := by
  intro rd rn addr s t h
  rw [eq_of_exec_stur h]
  exact frame_memWrite_advance ..

/-! ### LDUR (R145) -/

/-- Settles O21: LDUR's destination value is the read of the store at the position, as a signed integer
(`toInt_loadWord`). -/
theorem ldurLoadsTheEntryOrZero : Obligations.LdurLoadsTheEntryOrZero := by
  refine ⟨rowDecodes (by decide) (by decide), fun s rd rn addr p hp => ?_⟩
  obtain rfl := hp.effectivePosition_eq
  obtain ⟨t, ht, hval, hidx⟩ := exec_writes (i := .ldur rd rn addr) (P := (·.toInt = _)) rfl s (toInt_loadWord _)
  rw [State.memRead_eq] at hval
  refine ⟨t, ht, fun d hd => ?_, fun hnone => ?_, exec_mem ht, hidx⟩
  · rw [hval, Memory.read_of_entry_eq_some hd]
  · rw [hval, Memory.read_of_entry_eq_none hnone, BitVec.toInt_zero]

/-- A value that fits survives the way to the store and back (R145, R146). -/
theorem loadWord_storeWord {x : Word} (h : FitsWord x) : loadWord (storeWord x) = x :=
  BitVec.eq_of_toInt_eq (by rw [toInt_loadWord, toInt_storeWord h])

/-- Settles O38: LDUR reads back the word that STUR wrote at the same position (`Memory.read_write_same`), and the value that
fits is unchanged (`loadWord_storeWord`). -/
theorem loadAfterStoreGivesTheStoredValue : Obligations.LoadAfterStoreGivesTheStoredValue := by
  intro s t u rd rn rd' rn' addr addr' hfits ht hpos hu
  have hmem : t.mem = Memory.write s.mem (effectivePosition (s.reg rn) addr) (storeWord (s.reg rd)) := exec_mem ht
  rw [exec_reg_dest rfl hu, destValue, State.memRead_eq, hpos, hmem, Memory.read_write_same, loadWord_storeWord hfits]

/-! ### Canonical stores (R54) -/

/-- Settles O36: canonical stores with the same entries list the same pairs (`Memory.entry_eq_some_iff`), and strictly rising
lists of the same pairs are the same list. -/
theorem canonicalStoresAreEqualByEntries : Obligations.CanonicalStoresAreEqualByEntries := by
  intro m n hm hn hentries
  have : Std.Irrefl fun a b : Int × Data => a.1 < b.1 := ⟨fun a => lt_irrefl a.1⟩
  have : Std.Antisymm fun a b : Int × Data => a.1 < b.1 := ⟨fun _ _ h h' => absurd h' h.asymm⟩
  refine hm.1.eq_of_mem_iff hn.1 fun ⟨p, v⟩ => ?_
  rw [← Memory.entry_eq_some_iff hm, ← Memory.entry_eq_some_iff hn, hentries p]

/-! ### Branches, NOP and BREAK (R150 to R161) -/

/-- An instruction that neither writes a register nor stores nor halts moves the index alone. -/
theorem frame_of_moves_index {i : Instr} {s t : State} (hw : writesReg i = none) (hst : storesAt s i = none)
    (hb : i ≠ .brk) (h : exec i s = .next t) : Frame none none s t := by
  rcases exec_next h with ⟨rd, v, hw', -⟩ | ⟨rd, rn, addr, rfl, -⟩ | ⟨-, -, -, rfl⟩ | ⟨hb', -⟩
  · cases hw.symm.trans hw'
  · cases hst
  · exact frame_advance s _
  · exact absurd hb' hb

/-- Settles O32: each of the four moves the index alone (`frame_of_moves_index`). -/
theorem branchesAndNopChangeOnlyTheIndex : Obligations.BranchesAndNopChangeOnlyTheIndex := by
  rintro rd off s t (h | h | h | h) <;> exact frame_of_moves_index rfl rfl (by simp) h

/-- Settles O24: the index moves by the control delta (`exec_idx`), which is the offset exactly at zero. -/
theorem cbzBranchesOnZero : Obligations.CbzBranchesOnZero := by
  refine ⟨rowDecodes (by decide) (by decide), fun s rd off => ?_⟩
  obtain ⟨t, ht⟩ : ∃ t, exec (.cbz rd off) s = .next t := ⟨_, rfl⟩
  have hidx : t.idx = s.idx + if (s.reg rd).toInt = 0 then off else 1 := exec_idx ht
  exact ⟨t, ht, fun h => by rw [hidx, if_pos h], fun h => by rw [hidx, if_neg h]⟩

/-- Settles O25: the index moves by the control delta (`exec_idx`), which is the offset exactly away from zero. -/
theorem cbnzBranchesOnNonzero : Obligations.CbnzBranchesOnNonzero := by
  refine ⟨rowDecodes (by decide) (by decide), fun s rd off => ?_⟩
  obtain ⟨t, ht⟩ : ∃ t, exec (.cbnz rd off) s = .next t := ⟨_, rfl⟩
  have hidx : t.idx = s.idx + if (s.reg rd).toInt ≠ 0 then off else 1 := exec_idx ht
  exact ⟨t, ht, fun h => by rw [hidx, if_pos h], fun h => by rw [hidx, if_neg (not_not.2 h)]⟩

/-- Settles O27: NOP is one index update. -/
theorem nopOnlyMovesTheIndex : Obligations.NopOnlyMovesTheIndex :=
  ⟨rowDecodes (by decide) (by decide), fun s => ⟨s.advance 1, rfl, State.advance_idx s 1, frame_advance s 1⟩⟩

/-- Settles O28: BREAK is one status update. -/
theorem breakHaltsAndChangesNothingElse : Obligations.BreakHaltsAndChangesNothingElse :=
  ⟨rowDecodes (by decide) (by decide), fun s => ⟨s.halt, rfl, rfl, rfl, rfl, rfl, rfl, rfl, rfl, rfl⟩⟩

/-! ### Every instruction completes (R170) -/

/-- No instruction is refused. -/
theorem exec_ne_refused (i : Instr) (s : State) (r : Refusal) : exec i s ≠ .refused r := by
  cases i with
  | stur rd rn addr =>
    intro h
    simp only [exec, execStur, storeAndStep] at h
    split at h <;> cases h
  | _ => exact nofun

/-- Settles O29: with truncating stores every instruction completes (`exec_completes`), and none is refused
(`exec_ne_refused`). -/
theorem everyInstructionCompletes : Obligations.EveryInstructionCompletes :=
  ⟨fun i _ h => exec_completes h i, exec_ne_refused⟩

end Sys2Proof.Machine
end

section
/-! The statements about the loader of `40_decode_and_step.md` section 2: the split at the first BREAK (R101 to R104), the
input contract (R100) and the parameter `STRICT_SENTINELS` (U4). -/

namespace Sys2Proof.Machine

/-! ### The split at the first BREAK (R101, R103) -/

/-- The instruction segment ends no later than right after a BREAK. -/
theorem instructionCount_le_of_break {rom : Rom} {ws : List InstrWord} {b : Nat}
    (hb : ws[b]?.map (classify rom) = some (some .brk)) : instructionCount rom ws ≤ b + 1 := by
  rcases Nat.lt_or_ge (b + 1) ws.length with hlt | hge
  · exact (instructionCount_le_iff rom ws (b + 1) hlt).2 ⟨b, Nat.lt_succ_self b, hb⟩
  · exact (instructionCount_le rom ws).trans hge

/-- A line with no BREAK before it is an instruction. -/
theorem lt_instructionCount {rom : Rom} {ws : List InstrWord} {k : Nat} (hk : k < ws.length)
    (hnone : ∀ j, j < k → ws[j]?.map (classify rom) ≠ some (some .brk)) : k < instructionCount rom ws := by
  by_contra hle
  obtain ⟨j, hj, hbrk⟩ := (instructionCount_le_iff rom ws k hk).1 (Nat.not_lt.1 hle)
  exact hnone j hj hbrk

/-- With the first BREAK at `b` the segment has `b + 1` instructions. -/
theorem instructionCount_eq_of_first_break {rom : Rom} {ws : List InstrWord} {b : Nat}
    (hb : ws[b]?.map (classify rom) = some (some .brk))
    (hfirst : ∀ k, k < b → ws[k]?.map (classify rom) ≠ some (some .brk)) : instructionCount rom ws = b + 1 := by
  have hlt : b < ws.length := by
    obtain ⟨w, hw, -⟩ := Option.map_eq_some_iff.1 hb
    exact (List.getElem?_eq_some_iff.1 hw).1
  exact Nat.le_antisymm (instructionCount_le_of_break hb) (lt_instructionCount hlt hfirst)

/-- Without a BREAK every line is an instruction. -/
theorem instructionCount_eq_length {rom : Rom} {ws : List InstrWord} (h : ∀ w ∈ ws, classify rom w ≠ some .brk) :
    instructionCount rom ws = ws.length := by
  induction ws with
  | nil => rfl
  | cons w ws ih =>
    obtain ⟨hw, hws⟩ := List.forall_mem_cons.1 h
    rw [instructionCount, if_neg hw, ih hws, List.length_cons]

/-- The entries of the initial store: each data word at its own position, and no other (R102, R104). -/
theorem entry_load_eq_some_iff (cfg : Config) (ws : List InstrWord) (p : Int) (d : Data) :
    Memory.entry (load cfg ws).mem p = some d ↔
      ∃ k : Nat, instructionCount cfg.rom ws ≤ k ∧ p = 96 + 4 * (k : Int) ∧ ws[k]? = some d := by
  rw [load_mem, Memory.entry_eq_some_iff_of_rising (dataEntries_rising ..), mem_dataEntries]
  constructor
  · rintro ⟨j, hp, hw⟩
    exact ⟨_, Nat.le_add_right _ j, hp, by rwa [List.getElem?_drop] at hw⟩
  · rintro ⟨k, hk, hp, hw⟩
    refine ⟨k - instructionCount cfg.rom ws, ?_, ?_⟩
    · rw [Nat.add_sub_cancel' hk]
      exact hp
    · rw [List.getElem?_drop, Nat.add_sub_cancel' hk]
      exact hw

/-- Settles O54: the segment has `b + 1` instructions (`instructionCount_eq_of_first_break`), and the entries are those of
the words after it (`entry_load_eq_some_iff`). -/
theorem loaderSplitsAtTheFirstBreak : Obligations.LoaderSplitsAtTheFirstBreak := by
  intro cfg ws b hb hfirst
  have hcount := instructionCount_eq_of_first_break hb hfirst
  refine ⟨by rw [load_imem, hcount], fun k w hk hw => ?_, fun p d hd => ?_⟩
  · exact (entry_load_eq_some_iff ..).2 ⟨k, hcount ▸ hk, rfl, hw⟩
  · obtain ⟨k, hk, hp, hw⟩ := (entry_load_eq_some_iff ..).1 hd
    exact ⟨k, by rwa [hcount] at hk, hp, hw⟩

/-- Settles O56: the segment ends no later than right after a BREAK (`instructionCount_le_of_break`). -/
theorem loadedBreakIsTheLastInstruction : Obligations.LoadedBreakIsTheLastInstruction := by
  intro cfg ws k w hk hw
  rw [load_imem] at hk ⊢
  obtain ⟨hlt, -⟩ := List.getElem?_eq_some_iff.1 hk
  rw [List.length_take] at hlt ⊢
  rw [List.getElem?_take_of_lt (by omega)] at hk
  have hle := instructionCount_le_of_break (b := k) (by rw [hk, Option.map_some, hw])
  omega

/-- A word that decodes to BREAK is of BREAK's class. -/
theorem classify_of_decode_brk {rom : Rom} {w : InstrWord} (h : decode rom w = .instr .brk) :
    classify rom w = some .brk := by
  obtain ⟨o, ho, hu⟩ := (decode_eq_instr_iff ..).1 h
  have hop := op_unpack o w
  rw [hu] at hop
  rw [ho, ← hop]
  rfl

/-- Only a BREAK in the instruction store halts the block (R160). -/
theorem step_halts {s t : State} (hs : s.status ≠ .halted) (h : step s = .next t) (ht : t.status = .halted) :
    ∃ w ∈ s.imem, classify s.cfg.rom w = some .brk := by
  have hrun : s.status = .running := by
    by_contra hstopped
    cases (step_stopped hstopped).symm.trans h
    exact hs ht
  rcases runEndsOnlyInTheFourWays s t hrun h (by rw [ht]; exact nofun) with
    ⟨-, w, -, hf, hd⟩ | ⟨hst, -⟩ | ⟨w, hst, -⟩ | ⟨w, i, m, -, -, -, -, hst⟩
  · obtain ⟨k, -, hk⟩ := (fetch_eq_some_iff s w).1 hf
    exact ⟨w, List.mem_of_getElem? hk, classify_of_decode_brk hd⟩
  · cases hst.symm.trans ht
  · cases hst.symm.trans ht
  · cases hst.symm.trans ht

/-- Settles O55: every line is an instruction (`instructionCount_eq_length`), no step writes the program (`step_config`), and
only a BREAK halts (`step_halts`). -/
theorem loaderWithoutBreakHasNoData : Obligations.LoaderWithoutBreakHasNoData := by
  intro cfg ws hnone
  have hcount := instructionCount_eq_length hnone
  have himem : (load cfg ws).imem = ws := by rw [load_imem, hcount, List.take_length]
  refine ⟨himem, by rw [load_mem, hcount, List.drop_length]; rfl, fun k t h => ?_⟩
  have hkeeps : t.cfg = cfg ∧ t.imem = ws ∧ t.status ≠ .halted := by
    refine run_keeps (P := fun u => u.cfg = cfg ∧ u.imem = ws ∧ u.status ≠ .halted)
      (fun u v ⟨hcfg, himem, hst⟩ huv => ?_) ⟨rfl, himem, nofun⟩ h
    obtain ⟨hcfg', himem'⟩ := step_config huv
    refine ⟨hcfg'.trans hcfg, himem'.trans himem, fun hhalted => ?_⟩
    obtain ⟨w, hw, hbrk⟩ := step_halts hst huv hhalted
    rw [himem] at hw
    rw [hcfg] at hbrk
    exact hnone w hw hbrk
  exact hkeeps.2.2

/-! ### The input contract (R100) -/

/-- The contract of one line: 32 characters, each `0` or `1`. -/
def MeetsContract (line : List Char) : Prop := line.length = 32 ∧ ∀ c ∈ line, c = '0' ∨ c = '1'

/-- A value is read exactly from characters `0` and `1`. -/
theorem exists_bitsValue_iff (cs : List Char) (acc : Nat) :
    (∃ v, bitsValue cs acc = some v) ↔ ∀ c ∈ cs, c = '0' ∨ c = '1' := by
  induction cs generalizing acc with
  | nil => simp [bitsValue]
  | cons c cs ih =>
    rw [bitsValue_cons, List.forall_mem_cons]
    split
    · simp [*]
    · split <;> simp [*]

/-- The value that is read: the accumulator above the characters' bits, the first character the highest of them. -/
theorem bitsValue_bits {cs : List Char} {acc v : Nat} (h : bitsValue cs acc = some v) :
    v / 2 ^ cs.length = acc ∧
      ∀ j, j < cs.length → (v.testBit (cs.length - 1 - j) = true ↔ cs[j]? = some '1') := by
  induction cs generalizing acc with
  | nil =>
    cases h
    exact ⟨Nat.div_one _, fun j hj => absurd hj (Nat.not_lt_zero j)⟩
  | cons c cs ih =>
    obtain ⟨bit, hbit, hc⟩ : ∃ bit, bitsValue cs (2 * acc + bit) = some v ∧ ((bit = 0 ∧ c = '0') ∨ (bit = 1 ∧ c = '1')) := by
      rw [bitsValue_cons] at h
      split at h
      · exact ⟨0, h, .inl ⟨rfl, ‹_›⟩⟩
      · split at h
        · exact ⟨1, h, .inr ⟨rfl, ‹_›⟩⟩
        · cases h
    obtain ⟨hhigh, hlow⟩ := ih hbit
    refine ⟨?_, fun j hj => ?_⟩
    · rw [List.length_cons, Nat.pow_succ, ← Nat.div_div_eq_div_mul, hhigh]
      rcases hc with ⟨rfl, -⟩ | ⟨rfl, -⟩ <;> omega
    · cases j with
      | zero =>
        have htop : v.testBit cs.length = decide ((2 * acc + bit) % 2 = 1) := by
          rw [Nat.testBit_eq_decide_div_mod_eq, hhigh]
        rw [List.length_cons, Nat.add_sub_cancel, Nat.sub_zero, htop, List.getElem?_cons_zero]
        rcases hc with ⟨rfl, rfl⟩ | ⟨rfl, rfl⟩ <;> simp
      | succ j =>
        have hj : j < cs.length := Nat.lt_of_succ_lt_succ hj
        rw [List.getElem?_cons_succ, ← hlow j hj, List.length_cons]
        congr! 2
        omega

/-- A line is parsed exactly when it meets the contract. -/
theorem exists_parseLine_iff (line : List Char) : (∃ w, parseLine line = some w) ↔ MeetsContract line := by
  rw [MeetsContract, ← exists_bitsValue_iff line 0, parseLine]
  split <;> simp [*]

/-- Character `j` of a parsed line is bit `31 - j` of its word (R7). -/
theorem getLsbD_parseLine {cs : List Char} {w : InstrWord} (h : parseLine cs = some w) {j : Nat} (hj : j < 32) :
    w.getLsbD (31 - j) = true ↔ cs[j]? = some '1' := by
  rw [parseLine] at h
  split at h
  · rename_i hlen
    obtain ⟨v, hv, rfl⟩ := Option.map_eq_some_iff.1 h
    obtain ⟨-, hbits⟩ := bitsValue_bits hv
    rw [← hbits j (by omega), hlen, BitVec.getLsbD_ofNat, decide_eq_true (by omega), Bool.true_and]
  · cases h

/-- The words of lines that all parse. -/
theorem parseLines_ok {k : Nat} {ls : List (List Char)} {ws : List InstrWord} (h : parseLines k ls = .ok ws) :
    ls.map parseLine = ws.map some := by
  induction ls generalizing k ws with
  | nil =>
    cases h
    rfl
  | cons l ls ih =>
    cases hl : parseLine l with
    | none => simp [parseLines, hl] at h
    | some w =>
      cases hrest : parseLines (k + 1) ls with
      | error j => simp [parseLines, hl, hrest, Except.map] at h
      | ok ws' =>
        simp only [parseLines, hl, hrest, Except.map, Except.ok.injEq] at h
        rw [← h, List.map_cons, List.map_cons, ih hrest, hl]

/-- Without `STRICT_SENTINELS` lines that parse are loaded. -/
theorem loadLines_of_ok {cfg : Config} {lines : List String} {ws : List InstrWord} (hcfg : cfg.strictSentinels = false)
    (h : parseLines 0 (lines.map String.toList) = .ok ws) : loadLines cfg lines = .next (load cfg ws) := by
  simp [loadLines, h, hcfg]

/-- The first line that does not parse is refused by its number, whatever the parameters. -/
theorem loadLines_of_error {cfg : Config} {lines : List String} {k : Nat}
    (h : parseLines 0 (lines.map String.toList) = .error k) : loadLines cfg lines = .refused (.malformedLine k) := by
  simp [loadLines, h]

/-- Settles O57: lines parse exactly when they meet the contract (`exists_parseLine_iff`), a parsed word's bits are the
characters (`getLsbD_parseLine`), and the number refused is the first bad line's (`parseLines_error`). -/
theorem loadInterfaceTakesExactlyTheContract : Obligations.LoadInterfaceTakesExactlyTheContract := by
  intro cfg lines hcfg
  cases h : parseLines 0 (lines.map String.toList) with
  | ok ws =>
    have hwords := parseLines_ok h
    have hparse (k : Nat) : lines[k]?.map (fun l => parseLine l.toList) = ws[k]?.map some := by
      simpa [Function.comp_def] using congrArg (·[k]?) hwords
    refine ⟨fun _ => ⟨ws, loadLines_of_ok hcfg h, ?_, fun k l w hl hw j hj => ?_⟩, fun hbad => absurd ?_ hbad⟩
    · simpa using (congrArg List.length hwords).symm
    · have hlw : parseLine l.toList = some w := by simpa [hl, hw] using hparse k
      exact getLsbD_parseLine hlw hj
    · intro l hl
      obtain ⟨k, hk⟩ := List.getElem?_of_mem hl
      have hp := hparse k
      rw [hk, Option.map_some, eq_comm, Option.map_eq_some_iff] at hp
      obtain ⟨w, -, hw⟩ := hp
      exact (exists_parseLine_iff _).1 ⟨w, hw.symm⟩
  | error k =>
    obtain ⟨m, bad, hkm, hbad, hnone, hbefore⟩ := parseLines_error h
    rw [Nat.zero_add] at hkm
    subst hkm
    rw [List.getElem?_map, Option.map_eq_some_iff] at hbad
    obtain ⟨l, hl, rfl⟩ := hbad
    have hnot : ¬MeetsContract l.toList := by
      rw [← exists_parseLine_iff, hnone]
      exact nofun
    refine ⟨fun hall => absurd (hall l (List.mem_of_getElem? hl)) hnot, fun _ => ⟨k, l, hl, hnot, fun j l' hj hl' => ?_,
      loadLines_of_error h⟩⟩
    exact (exists_parseLine_iff _).1 (hbefore j l'.toList hj (by rw [List.getElem?_map, hl', Option.map_some]))

/-! ### `STRICT_SENTINELS` (U4) -/

/-- A word is refused when it is a NOP or a BREAK other than the canonical one. -/
theorem nonCanonical_iff (rom : Rom) (w : InstrWord) :
    nonCanonical rom w = true ↔
      (classify rom w = some .nop ∧ w ≠ 0x00000000#32) ∨ (classify rom w = some .brk ∧ w ≠ 0xFEDEFFE7#32) := by
  rw [nonCanonical]
  split <;> simp_all [nopWord, breakWord]

/-- With `STRICT_SENTINELS` the first instruction that is refused is the loader's answer. -/
theorem loadLines_strict_refused {cfg : Config} {lines : List String} {ws : List InstrWord} {k : Nat}
    (hcfg : cfg.strictSentinels = true) (h : parseLines 0 (lines.map String.toList) = .ok ws)
    (hfind : (load cfg ws).imem.findIdx? (nonCanonical cfg.rom) = some k) :
    loadLines cfg lines = .refused (.nonCanonicalSentinel k) := by
  simp only [loadLines, h, hcfg, hfind]

/-- With `STRICT_SENTINELS` a program in which no instruction is refused is loaded. -/
theorem loadLines_strict_loads {cfg : Config} {lines : List String} {ws : List InstrWord}
    (h : parseLines 0 (lines.map String.toList) = .ok ws)
    (hfind : (load cfg ws).imem.findIdx? (nonCanonical cfg.rom) = none) : loadLines cfg lines = .next (load cfg ws) := by
  simp only [loadLines, h, hfind]
  cases cfg.strictSentinels <;> rfl

/-- Settles O58: the loader looks for the first instruction that is a non-canonical NOP or BREAK (`nonCanonical_iff`),
and loads the program when there is none. -/
theorem strictSentinelsRefuseNonCanonicalWords : Obligations.StrictSentinelsRefuseNonCanonicalWords := by
  intro cfg lines ws hcfg h bad
  have hbad (k : Nat) (w : InstrWord) : bad k w ↔ (load cfg ws).imem[k]? = some w ∧ nonCanonical cfg.rom w = true := by
    rw [nonCanonical_iff]
  cases hfind : (load cfg ws).imem.findIdx? (nonCanonical cfg.rom) with
  | none =>
    refine ⟨fun ⟨k, w, hkw⟩ => ?_, fun _ => loadLines_strict_loads h hfind⟩
    obtain ⟨hk, hw⟩ := (hbad k w).1 hkw
    simp [List.findIdx?_eq_none_iff.1 hfind w (List.mem_of_getElem? hk)] at hw
  | some k =>
    obtain ⟨hlt, hw, -⟩ := List.findIdx?_eq_some_iff_getElem.1 hfind
    have hk : bad k (load cfg ws).imem[k] := (hbad ..).2 ⟨List.getElem?_eq_getElem hlt, hw⟩
    exact ⟨fun _ => ⟨k, _, hk, loadLines_strict_refused hcfg h hfind⟩, fun hnone => absurd ⟨k, _, hk⟩ hnone⟩

end Sys2Proof.Machine
end
